-- ==== Sys2Proof/Word.lean ====
section
/-! DEFINITION. Words and register indices (00_scope.md R8, R10; 10_state.md R20; 92_eei_decisions.md D1, D2). -/

namespace Sys2Proof

/-- A register, a data-memory word, an arithmetic operand or result, the program counter, an instruction word:
32 bits (R8, R20, R24, R72). -/
abbrev Word := BitVec 32

/-- A register index: 5 bits, 0 to 31 (R8, R20), so an index outside [0,32) cannot be written down (R22, R223). -/
abbrev Reg := BitVec 5

/-- `s32(v)` of R10: the signed reading of a word. -/
abbrev s32 (v : Word) : Int := v.toInt

end Sys2Proof
end

