-- ==== Sys2Proof/Config.lean ====
section
/-! DEFINITION. The named parameters of 00_scope.md R9. They are plain data and stand in State (field `params`), so that
every claim is about every choice of them. `PROG_LEN` is the length of the loaded instruction store, and the two toggles
`cfg.hazard_en` and `cfg.fwd_en` are fields of State (10_state.md R28). -/

namespace Sys2Proof

/-- `SHIFT_OPERANDS` (42_arith_logic.md R188, 92_eei_decisions.md D6): what SLL and SRL shift and by how much. -/
inductive ShiftOperands where
  /-- the value is `x[rt]`, the count is the record's `shamt` (the default) -/
  | rtShamt
  /-- the value is `x[rs]`, the count is `x[rt][4:0]` -/
  | rsRt
  deriving DecidableEq, Repr

/-- The parameters an implementation fixes (R9). -/
structure Params where
  /-- `MEM_WORDS`: the number of 32-bit words of data memory (R41, D13) -/
  memWords : Nat
  /-- `SHIFT_OPERANDS` (R188, D6) -/
  shiftOperands : ShiftOperands
  /-- `MEM_STORE_FWD` (R143, D8) -/
  memStoreFwd : Bool
  /-- `HAZARD_FIELD_COMPARE` (R152, D9) -/
  hazardFieldCompare : Bool
  deriving DecidableEq, Repr

/-- The range R9 gives `MEM_WORDS`: `1 <= MEM_WORDS <= 2^29`. -/
abbrev Params.valid (p : Params) : Prop := 1 ≤ p.memWords ∧ p.memWords ≤ 2 ^ 29

/-- The defaults of R9. `MEM_WORDS` has no default in R9; 1024 is what 95_test_vectors.md uses
(DESIGN CHOICE, log entry 2). -/
def Params.default : Params where
  memWords := 1024
  shiftOperands := .rtShamt
  memStoreFwd := true
  hazardFieldCompare := true

/-- The most slots an instruction store has: `0 <= PROG_LEN <= 2^31` (R9, D29). -/
abbrev maxProgLen : Nat := 2 ^ 31

end Sys2Proof
end

