-- ==== Sys2Proof/Syntax.lean ====
section
/-! DEFINITION. The instruction set: 15 instructions, closed (00_scope.md R2), one constructor per row of
opcode_table.json, and the record of 30_encoding.md R70 they stand for. -/

namespace Sys2Proof

/-- The closed enumeration of R70. -/
inductive Opcode where
  | ADD | SUB | AND | OR | XOR | SLT | SLL | SRL | ADDI | ORI | LW | SW | BEQ | BGEZ | J
  deriving DecidableEq, Repr

/-- The format tag of R70, R71. -/
inductive Format where
  | R | I | J
  deriving DecidableEq, Repr

/-- An instruction, with the fields of the record that its opcode uses (R71). The fields it does not use are 0 in the
record and are read back as 0 by `Instr.rs`, `Instr.rt` and so on. `imm` is the sign-extended 32-bit immediate and
`addr` the 32-bit instruction index of R70. SLL and SRL carry both an `rs` and a `shamt`: under `SHIFT_OPERANDS =
rt_shamt` a well-formed one has `rs = 0`, under `rs_rt` it has `shamt = 0` (R71, R188). -/
inductive Instr where
  | add  (rd rs rt : Reg)
  | sub  (rd rs rt : Reg)
  | and  (rd rs rt : Reg)
  | or   (rd rs rt : Reg)
  | xor  (rd rs rt : Reg)
  | slt  (rd rs rt : Reg)
  | sll  (rd rs rt : Reg) (shamt : BitVec 5)
  | srl  (rd rs rt : Reg) (shamt : BitVec 5)
  | addi (rt rs : Reg) (imm : Word)
  | ori  (rt rs : Reg) (imm : Word)
  | lw   (rt rs : Reg) (imm : Word)
  | sw   (rt rs : Reg) (imm : Word)
  | beq  (rs rt : Reg) (imm : Word)
  | bgez (rs : Reg) (imm : Word)
  | j    (addr : Word)
  deriving DecidableEq, Repr

namespace Instr

/-- The `opcode` field of the record. -/
def opcode : Instr → Opcode
  | .add .. => .ADD | .sub .. => .SUB | .and .. => .AND | .or .. => .OR | .xor .. => .XOR | .slt .. => .SLT
  | .sll .. => .SLL | .srl .. => .SRL | .addi .. => .ADDI | .ori .. => .ORI | .lw .. => .LW | .sw .. => .SW
  | .beq .. => .BEQ | .bgez .. => .BGEZ | .j .. => .J

/-- The `rs` field of the record: 0 where the opcode does not use it (R71). -/
def rs : Instr → Reg
  | .add _ rs _ | .sub _ rs _ | .and _ rs _ | .or _ rs _ | .xor _ rs _ | .slt _ rs _ => rs
  | .sll _ rs _ _ | .srl _ rs _ _ => rs
  | .addi _ rs _ | .ori _ rs _ | .lw _ rs _ | .sw _ rs _ => rs
  | .beq rs _ _ | .bgez rs _ => rs
  | .j _ => 0

/-- The `rt` field of the record: 0 for BGEZ (R76, D5) and J. -/
def rt : Instr → Reg
  | .add _ _ rt | .sub _ _ rt | .and _ _ rt | .or _ _ rt | .xor _ _ rt | .slt _ _ rt => rt
  | .sll _ _ rt _ | .srl _ _ rt _ => rt
  | .addi rt _ _ | .ori rt _ _ | .lw rt _ _ | .sw rt _ _ => rt
  | .beq _ rt _ => rt
  | .bgez _ _ | .j _ => 0

/-- The `rd` field of the record: 0 outside format R. -/
def rd : Instr → Reg
  | .add rd _ _ | .sub rd _ _ | .and rd _ _ | .or rd _ _ | .xor rd _ _ | .slt rd _ _ => rd
  | .sll rd _ _ _ | .srl rd _ _ _ => rd
  | .addi .. | .ori .. | .lw .. | .sw .. | .beq .. | .bgez .. | .j .. => 0

/-- The `shamt` field of the record: 0 but for SLL and SRL. -/
def shamt : Instr → BitVec 5
  | .sll _ _ _ sh | .srl _ _ _ sh => sh
  | .add .. | .sub .. | .and .. | .or .. | .xor .. | .slt .. => 0
  | .addi .. | .ori .. | .lw .. | .sw .. | .beq .. | .bgez .. | .j .. => 0

/-- The `imm` field of the record, already sign-extended (R77): 0 outside format I. -/
def imm : Instr → Word
  | .addi _ _ imm | .ori _ _ imm | .lw _ _ imm | .sw _ _ imm | .beq _ _ imm | .bgez _ imm => imm
  | .add .. | .sub .. | .and .. | .or .. | .xor .. | .slt .. | .sll .. | .srl .. | .j .. => 0

/-- The `addr` field of the record, an instruction index: 0 but for J. -/
def addr : Instr → Word
  | .j addr => addr
  | .add .. | .sub .. | .and .. | .or .. | .xor .. | .slt .. | .sll .. | .srl .. => 0
  | .addi .. | .ori .. | .lw .. | .sw .. | .beq .. | .bgez .. => 0

end Instr

/-- The format tag of each opcode (R71). -/
def Opcode.format : Opcode → Format
  | .ADD | .SUB | .AND | .OR | .XOR | .SLT | .SLL | .SRL => .R
  | .ADDI | .ORI | .LW | .SW | .BEQ | .BGEZ => .I
  | .J => .J

/-- A record as a host may hand it to the loader (60_exceptions.md R244): the fields of R70 with no bound on any of them,
"no validation beyond what parsing already did". -/
structure Record where
  opcode : Opcode
  format : Format
  rs : Nat
  rt : Nat
  rd : Nat
  imm : Int
  shamt : Nat
  addr : Nat
  deriving DecidableEq, Repr

end Sys2Proof
end

