-- ==== Sys2Proof/Machine/State.lean ====
section
/-! DEFINITION. The state of `CORE` (10_state.md R20 to R46): everything the spec lists there, as plain data, the
implementation parameters of R9, and one field of the model's own (`phase`, log entry 1). -/

namespace Sys2Proof.Machine

/-- The five stages (00_scope.md R12). As a value of the field `phase` it says which stage procedure of the cycle of
41_pipeline.md R130 is running. -/
inductive Stage where
  | fetch | decode | execute | memory | writeback
  deriving DecidableEq, Repr

/-- The values of the dead output `aluOpMarker` (40_units.md R111, R112): 0, 1, 2, 5 or none. -/
inductive AluOpMarker where
  | m0 | m1 | m2 | m5 | none
  deriving DecidableEq, Repr

/-- The control bundle (R31). -/
structure Ctrl where
  regWrite : Bool
  memRead : Bool
  memWrite : Bool
  branch : Bool
  aluSrc : Bool
  regDst : Bool
  memToReg : Bool
  jump : Bool
  aluOpMarker : AluOpMarker
  deriving DecidableEq, Repr

/-- An occupied Fetch→Decode latch (R32). -/
structure IfId where
  instr : Instr
  /-- the index of the slot it was fetched from -/
  ipc : Word
  deriving DecidableEq, Repr

/-- An occupied Decode→Execute latch (R33). -/
structure IdEx where
  instr : Instr
  ipc : Word
  /-- `x[rs]` as Decode read it -/
  a : Word
  /-- `x[rt]` as Decode read it -/
  b : Word
  imm : Word
  dest : Reg
  ctrl : Ctrl
  deriving DecidableEq, Repr

/-- An occupied Execute→Memory latch (R34). -/
structure ExMem where
  instr : Instr
  ipc : Word
  /-- the arithmetic result; the byte address of LW and SW; 0 for J -/
  alu : Word
  /-- the store data: `x[rt]` as Execute forwarded it -/
  sd : Word
  dest : Reg
  ctrl : Ctrl
  deriving DecidableEq, Repr

/-- An occupied Memory→Writeback latch (R35). -/
structure MemWb where
  instr : Instr
  ipc : Word
  alu : Word
  /-- the word loaded, or 0 -/
  mem : Word
  dest : Reg
  ctrl : Ctrl
  deriving DecidableEq, Repr

/-- The kinds of fatal error (60_exceptions.md R221 to R225). -/
inductive ErrorKind where
  /-- R221: decode or the arithmetic-operation lookup given an opcode it has no entry for. Raised in Execute for a J whose
  latched `jump` flag is clear, which no run reaches (R114, R115). -/
  | unknownOpcode
  /-- R222: a selector outside the eight operations. The selector is a closed type here, so nothing raises it (R108). -/
  | unknownArithmeticOperation
  /-- R223: a register index outside [0,32). Raised by the host's register ports only; a program cannot reach it. -/
  | invalidRegisterIndex
  /-- R224: a data address with bit 31 set or with a word index outside the capacity. Raised in Memory by LW and SW, and by the
  host's memory ports. -/
  | memoryOutOfBounds
  /-- R225: `pc` has bit 31 set. Raised in Fetch. -/
  | invalidFetchAddress
  deriving DecidableEq, Repr

/-- The register file: 32 slots of one word (R20). Slot 0 is read and written as R21 says, by the operations of
Machine/Ops.lean alone. -/
abbrev RegFile := Vector Word 32

/-- The data memory (R41): (word index, word) pairs, indices strictly rising, no word 0, which is what an unlisted index
reads as (R45). Words and not bytes: R55, D22 (log entry 3). -/
abbrev Memory := List (Nat × Word)

/-- The instruction store (R40): `PROG_LEN` slots, each occupied or absent. -/
abbrev Store := List (Option Instr)

end Sys2Proof.Machine

namespace Sys2Proof.Machine

/-- All state of `CORE`. -/
structure State where
  /-- `x[0..31]` (R20 to R23) -/
  regs : RegFile
  /-- the program counter, an instruction index (R24, R25) -/
  pc : Word
  /-- the zero flag (R26) -/
  zf : Bool
  /-- the Fetch→Decode latch (R30, R32) -/
  ifid : Option IfId
  /-- the Decode→Execute latch (R30, R33) -/
  idex : Option IdEx
  /-- the Execute→Memory latch (R30, R34) -/
  exmem : Option ExMem
  /-- the Memory→Writeback latch (R30, R35) -/
  memwb : Option MemWb
  /-- the prior-writeback snapshot of the cycle that is running or ended last (R131); between cycles it is the Writeback
  label of R164 -/
  snap : Option MemWb
  /-- `IMEM` (R40) -/
  imem : Store
  /-- `DMEM` (R41) -/
  dmem : Memory
  /-- `cfg.hazard_en` (R28) -/
  hazardEn : Bool
  /-- `cfg.fwd_en` (R28) -/
  fwdEn : Bool
  /-- `halted` (R28, R160) -/
  halted : Bool
  /-- the cycle counter (R28, R162) -/
  cycle : Nat
  /-- the stall counter (R28, R162) -/
  stalls : Nat
  /-- `fault` (R29) -/
  fault : Option ErrorKind
  /-- the MODEL'S OWN: which stage procedure is running; `fetch`, the last one, between cycles (log entry 1) -/
  phase : Stage
  /-- the parameters of R9 -/
  params : Params
  deriving DecidableEq, Repr

/-- How a run stops. -/
inductive Fault where
  /-- `raise kind` (60_exceptions.md R220): raised by the stage procedures and the host ports of Machine/ where `ErrorKind`
  says so. `after` is what the completed stages left, with the state's own `fault` set (R29, R220). Safe as a stop: the
  spec ends the run there. A claim that reads `after` is unsafe beyond R220 and R224 (93_implementation_defined.md U8,
  log entry 5). -/
  | raised (kind : ErrorKind) (after : State)
  deriving DecidableEq, Repr

/-- Why an operation has no meaning here. -/
inductive Refusal where
  /-- an instruction without a meaning; no arm of `exec` answers it. Safe. -/
  | notModelled (mnemonic : String)
  /-- a host write to registers, memory or toggles after the first step (70_reset_and_hazards.md R255, U11), answered by
  the preset ports. Safe: the spec says nothing of the result. -/
  | presetDuringRun
  /-- a program load into a core that has stepped since reset (R252, U12), answered by the loader. Safe: the spec gives it no
  meaning. -/
  | loadWithoutReset
  /-- a record outside the well-formed set handed to the loader (R71, R223, U14), answered by the loader. Safe: U14 says to
  refuse it. -/
  | illFormedRecord
  /-- a program longer than 2^31 slots (R9), answered by the loader. Safe: outside the range of `PROG_LEN`. -/
  | programTooLong
  deriving DecidableEq, Repr

/-- What every operation of the machine answers. -/
abbrev Result := Host.Outcome State Fault Refusal

/-- The machine after reset under given parameters: the table of R45. `IMEM` is unspecified there until the loader
installs a program; it is empty here (log entry 4). -/
def State.resetWith (p : Params) : State where
  regs := Vector.replicate 32 0
  pc := 0
  zf := false
  ifid := none
  idex := none
  exmem := none
  memwb := none
  snap := none
  imem := []
  dmem := []
  hazardEn := true
  fwdEn := true
  halted := false
  cycle := 0
  stalls := 0
  fault := none
  phase := .fetch
  params := p

/-- The machine after reset, under the default parameters of R9. -/
def State.reset : State := State.resetWith Params.default

end Sys2Proof.Machine
end

