-- ==== Sys2Proof/Machine/Flags.lean ====
section
/-! DEFINITION. The one flag, the zero flag (10_state.md R26, R27; 40_units.md R107). -/

namespace Sys2Proof.Machine

/-- `zf <- (result = 0)`, after every execution of the arithmetic unit (R107). -/
def zeroFlag (result : Word) : Bool := result == 0

end Sys2Proof.Machine
end

