-- ==== Sys2Proof/Machine/Ops.lean ====
section
/-! DEFINITION. The named operations over registers, data memory and instruction store, and raising a fatal error. -/

namespace Sys2Proof.Machine

/-! Registers (10_state.md R20 to R22). -/

/-- `read(idx)` for an index that is one by its type: 0 for register 0, else the stored value (R21, R22). -/
def regRead (f : RegFile) (r : Reg) : Word := if r = 0 then 0 else f[r.toNat]'r.isLt

/-- `write(idx, value)`: nothing for register 0 (R21, R22). -/
def regWrite (f : RegFile) (r : Reg) (v : Word) : RegFile := if r = 0 then f else f.set r.toNat v r.isLt

/-- `read(idx)` for any number: it "fails with InvalidRegisterIndex outside [0,32)" (R22, R223). -/
def regReadAt (f : RegFile) (idx : Nat) : Except ErrorKind Word :=
  if idx < 32 then .ok (regRead f (BitVec.ofNat 5 idx)) else .error .invalidRegisterIndex

/-- `write(idx, value)` for any number (R22, R223). -/
def regWriteAt (f : RegFile) (idx : Nat) (v : Word) : Except ErrorKind RegFile :=
  if idx < 32 then .ok (regWrite f (BitVec.ofNat 5 idx) v) else .error .invalidRegisterIndex

/-! Data memory (20_memory.md R50 to R54). -/

/-- What a word reads as that nothing has written: 0, the reset value of `DMEM[i]` (R45). -/
def memDefault : Word := 0

/-- `DMEM[k]`. -/
def memGet : Memory → Nat → Word
  | [], _ => memDefault
  | (j, v) :: m, k => if j = k then v else memGet m k

/-- `m` with an entry for `k`, the one its canonical form asks for: none for the value an unlisted index reads as. -/
def memCons (k : Nat) (v : Word) (m : Memory) : Memory := if v = memDefault then m else (k, v) :: m

/-- `DMEM[k] <- v`, keeping the canonical form. -/
def memSet : Memory → Nat → Word → Memory
  | [], k, v => memCons k v []
  | (j, w) :: m, k, v =>
    if k < j then memCons k v ((j, w) :: m)
    else if k = j then memCons k v m
    else (j, w) :: memSet m k v

/-- Every index of the memory is above `lo`, indices rise strictly, and no entry holds what an unlisted index reads as. -/
def memSortedAbove : Option Nat → Memory → Bool
  | _, [] => true
  | lo, (j, v) :: m => (match lo with | none => true | some l => decide (l < j)) && v != memDefault && memSortedAbove (some j) m

/-- The canonical form of a memory. -/
def Memory.wf (m : Memory) : Bool := memSortedAbove none m

/-- `idx(addr) = addr[31:2]` read as a natural number: the address divided by 4, remainder discarded (R50, R54). -/
def wordIndex (addr : Word) : Nat := (addr.extractLsb' 2 30).toNat

/-- An address is refused when its bit 31 is set or its word index is at least `MEM_WORDS` (R53, D12). -/
def addrRefused (p : Params) (addr : Word) : Bool := addr.msb || decide (p.memWords ≤ wordIndex addr)

/-- `MemRead(addr, 4)` (R51). -/
def memRead (p : Params) (m : Memory) (addr : Word) : Except ErrorKind Word :=
  if addrRefused p addr then .error .memoryOutOfBounds else .ok (memGet m (wordIndex addr))

/-- `MemWrite(addr, 4, v)` (R52). -/
def memWrite (p : Params) (m : Memory) (addr v : Word) : Except ErrorKind Memory :=
  if addrRefused p addr then .error .memoryOutOfBounds else .ok (memSet m (wordIndex addr) v)

/-! Instruction store (10_state.md R40). -/

/-- The slot at an index: an index outside [0, `PROG_LEN`) holds nothing, like an absent slot (R40, R155). -/
def slotAt (im : Store) (k : Word) : Option Instr := (im[k.toNat]?).join

/-! Errors and sequencing. -/

/-- `raise kind` (60_exceptions.md R220): `fault <- kind`, and nothing further of the cycle runs. Nothing is saved, no mode
changes and control goes nowhere (R231); there is no return from it but a reset (R232). -/
def raise (kind : ErrorKind) (s : State) : Result := .fault (.raised kind { s with fault := some kind })

/-- Run `f` where `r` answers a next state; a stop stays a stop. -/
def andThen (r : Result) (f : State → Result) : Result :=
  match r with
  | .next s => f s
  | .fault e => .fault e
  | .refused e => .refused e

end Sys2Proof.Machine
end

