-- ==== Sys2Proof/Machine/Units.lean ====
section
/-! DEFINITION. The arithmetic unit and the control decoder (40_units.md R100 to R115). -/

namespace Sys2Proof.Machine

/-- The eight operation selectors (R100). -/
inductive AluOp where
  | add | sub | and | or | xor | slt | sll | srl
  deriving DecidableEq, Repr

/-- The three-bit code of a selector in a hardware build (R109); no rule depends on it. -/
def aluOpCode : AluOp → BitVec 3
  | .add => 0 | .sub => 1 | .and => 2 | .or => 3 | .xor => 4 | .slt => 5 | .sll => 6 | .srl => 7

/-- The selector of a code, with the defensive check of R108 for a code outside the eight. -/
def aluOpOfCode (n : Nat) : Except ErrorKind AluOp :=
  match n with
  | 0 => .ok .add | 1 => .ok .sub | 2 => .ok .and | 3 => .ok .or
  | 4 => .ok .xor | 5 => .ok .slt | 6 => .ok .sll | 7 => .ok .srl
  | _ => .error .unknownArithmeticOperation

/-- The shift count: `b[4:0]`, the low five bits only (R105, R106, D7). -/
def shiftCount (b : Word) : Nat := (b.extractLsb' 0 5).toNat

/-- The result of `execute(op, a, b)` (R101 to R106). -/
def aluResult : AluOp → Word → Word → Word
  | .add, a, b => a + b
  | .sub, a, b => a - b
  | .and, a, b => a &&& b
  | .or, a, b => a ||| b
  | .xor, a, b => a ^^^ b
  | .slt, a, b => if s32 a < s32 b then 1 else 0
  | .sll, a, b => a <<< shiftCount b
  | .srl, a, b => a >>> shiftCount b

/-- The row of R111 that the eight format R opcodes share. -/
def ctrlRegReg : Ctrl where
  regWrite := true
  memRead := false
  memWrite := false
  branch := false
  aluSrc := false
  regDst := true
  memToReg := false
  jump := false
  aluOpMarker := .m2

/-- The row ADDI of R111. -/
def ctrlAddi : Ctrl where
  regWrite := true
  memRead := false
  memWrite := false
  branch := false
  aluSrc := true
  regDst := false
  memToReg := false
  jump := false
  aluOpMarker := .m0

/-- The row ORI of R111. -/
def ctrlOri : Ctrl where
  regWrite := true
  memRead := false
  memWrite := false
  branch := false
  aluSrc := true
  regDst := false
  memToReg := false
  jump := false
  aluOpMarker := .m1

/-- The row LW of R111. -/
def ctrlLw : Ctrl where
  regWrite := true
  memRead := true
  memWrite := false
  branch := false
  aluSrc := true
  regDst := false
  memToReg := true
  jump := false
  aluOpMarker := .m0

/-- The row SW of R111. -/
def ctrlSw : Ctrl where
  regWrite := false
  memRead := false
  memWrite := true
  branch := false
  aluSrc := true
  regDst := false
  memToReg := false
  jump := false
  aluOpMarker := .m0

/-- The row BEQ of R111. -/
def ctrlBeq : Ctrl where
  regWrite := false
  memRead := false
  memWrite := false
  branch := true
  aluSrc := false
  regDst := false
  memToReg := false
  jump := false
  aluOpMarker := .m1

/-- The row BGEZ of R111. -/
def ctrlBgez : Ctrl where
  regWrite := false
  memRead := false
  memWrite := false
  branch := true
  aluSrc := false
  regDst := false
  memToReg := false
  jump := false
  aluOpMarker := .m5

/-- The row J of R111. -/
def ctrlJ : Ctrl where
  regWrite := false
  memRead := false
  memWrite := false
  branch := false
  aluSrc := false
  regDst := false
  memToReg := false
  jump := true
  aluOpMarker := .none

/-- `decodeCtrl(opcode)` (R110, R111). The opcode type is closed, so it has no UnknownOpcode case (R114). -/
def decodeCtrl : Opcode → Ctrl
  | .ADD | .SUB | .AND | .OR | .XOR | .SLT | .SLL | .SRL => ctrlRegReg
  | .ADDI => ctrlAddi
  | .ORI => ctrlOri
  | .LW => ctrlLw
  | .SW => ctrlSw
  | .BEQ => ctrlBeq
  | .BGEZ => ctrlBgez
  | .J => ctrlJ

/-- `aluOpOf(opcode)` (R113); J has no entry (R114, R115). -/
def aluOpOf : Opcode → Option AluOp
  | .ADD | .ADDI | .LW | .SW => some .add
  | .SUB | .BEQ => some .sub
  | .AND => some .and
  | .OR | .ORI => some .or
  | .XOR => some .xor
  | .SLT | .BGEZ => some .slt
  | .SLL => some .sll
  | .SRL => some .srl
  | .J => none

end Sys2Proof.Machine
end

