-- ==== Sys2Proof/Machine/Operands.lean ====
section
/-! DEFINITION. Where an instruction's operands come from: the destination, the load-use check, forwarding, operand
selection, store data, the writeback value and the resolution of a transfer (10_state.md R35; 41_pipeline.md R143,
R146, R147, R149, R150, R152). -/

namespace Sys2Proof.Machine

/-- The destination of an instruction (R150). -/
def destOf (i : Instr) (c : Ctrl) : Reg := if c.regDst then i.rd else i.rt

/-- `wbval(L)` (R35). -/
def wbval (w : MemWb) : Word := if w.ctrl.memToReg then w.mem else w.alu

/-- Case (a) of R146: what the Execute→Memory latch supplies for register `r`; a load supplies nothing. -/
def exmemSource (l : Option ExMem) (r : Reg) : Option Word :=
  match l with
  | none => none
  | some m => if m.ctrl.regWrite && m.dest == r && !m.ctrl.memRead then some m.alu else none

/-- Case (b) of R146, and R143: what the prior-writeback snapshot supplies for register `r`. -/
def snapSource (l : Option MemWb) (r : Reg) : Option Word :=
  match l with
  | none => none
  | some w => if w.ctrl.regWrite && w.dest == r then some (wbval w) else none

/-- `fwd(r, v)` (R146): register 0 is 0; else (a), else (b), else the value read at decode time. -/
def forward (s : State) (r : Reg) (v : Word) : Word :=
  if r = 0 then 0
  else if s.fwdEn then ((exmemSource s.exmem r).or (snapSource s.snap r)).getD v
  else v

/-- `operands(i, c, fa, fb, imm)` (R147, R188). -/
def operands (so : ShiftOperands) (i : Instr) (c : Ctrl) (fa fb imm : Word) : Word × Word :=
  let common : Word × Word := if c.aluSrc then (fa, imm) else (fa, fb)
  match i.opcode with
  | .SLL | .SRL => match so with
    | .rtShamt => (fb, i.shamt.setWidth 32)
    | .rsRt => common
  | _ => common

/-- `storeData(M)` (R143): the snapshot's writeback value where the parameter and the toggle allow it and the snapshot
writes the store's `rt`, else the value Execute forwarded. -/
def storeData (s : State) (i : Instr) (m : ExMem) : Word :=
  if s.params.memStoreFwd && s.fwdEn && i.rt != 0 then (snapSource s.snap i.rt).getD m.sd else m.sd

/-- The opcodes that really read `rs` (R152, D9): all but J, and but SLL and SRL where they shift `x[rt]`. -/
def readsRs (so : ShiftOperands) : Opcode → Bool
  | .SLL | .SRL => so == .rsRt
  | .J => false
  | .ADD | .SUB | .AND | .OR | .XOR | .SLT | .ADDI | .ORI | .LW | .SW | .BEQ | .BGEZ => true

/-- The opcodes that read `rt` and are not stores (R152, D9). -/
def readsRt : Opcode → Bool
  | .ADD | .SUB | .AND | .OR | .XOR | .SLT | .SLL | .SRL | .BEQ => true
  | .ADDI | .ORI | .LW | .SW | .BGEZ | .J => false

/-- Which registers of the instruction being decoded the load-use check compares with `dest` (R152): the `rs` and `rt`
fields, whatever the opcode, `rt` not for a store; with `HAZARD_FIELD_COMPARE = false` only those the opcode reads. -/
def comparesWith (p : Params) (i : Instr) (c : Ctrl) (dest : Reg) : Bool :=
  if p.hazardFieldCompare then i.rs == dest || (i.rt == dest && !c.memWrite)
  else (readsRs p.shiftOperands i.opcode && i.rs == dest) || (readsRt i.opcode && i.rt == dest)

/-- `hazard(i, c)` (R152): the Decode→Execute latch holds a load whose destination, not register 0, is compared equal. -/
def hazard (s : State) (i : Instr) (c : Ctrl) : Bool :=
  s.hazardEn && match s.idex with
    | none => false
    | some e => e.ctrl.memRead && e.dest != 0 && comparesWith s.params i c e.dest

/-- `t = (ipc + 1 + imm) mod 2^32` (R149, R210). -/
def branchTarget (ipc imm : Word) : Word := ipc + 1 + imm

/-- `resolve(i, c, fa, ipc, imm)` (R149): the target where the transfer is taken. `zf` is the zero flag as the arithmetic
unit has just left it. BEQ tests it; BGEZ tests the forwarded operand itself. -/
def resolve (i : Instr) (c : Ctrl) (fa ipc imm : Word) (zf : Bool) : Option Word :=
  if c.jump then some i.addr
  else if c.branch then
    let taken := match i.opcode with
      | .BEQ => zf
      | _ => decide (0 ≤ s32 fa)
    if taken then some (branchTarget ipc imm) else none
  else none

end Sys2Proof.Machine
end

