-- ==== Sys2Proof/Machine/Stages.lean ====
section
/-! DEFINITION. The stage procedures of 41_pipeline.md as they treat ONE instruction `i`: what Fetch, Decode, Execute,
Memory and Writeback do with it (R135, R140 to R157). Each is shared by all 15 instructions; an instruction brings its
row of the control table (40_units.md R111) and its arithmetic selector (R113). The instruction is the one its latch
holds: Machine/Cycle.lean calls it so. -/

namespace Sys2Proof.Machine

/-- Fetch delivers `i`: `IFID <- some(instr, ipc = pc); pc <- pc + 1` (R155). -/
def fetchStage (i : Instr) (s : State) : Result :=
  .next { s with ifid := some ⟨i, s.pc⟩, pc := s.pc + 1 }

/-- Decode (R151): a stall (R153) or the normal path (R154), with the control row `c`. -/
def decodeStage (i : Instr) (c : Ctrl) (s : State) : Result :=
  match s.ifid with
  | none => .next { s with idex := none }
  | some f =>
    if hazard s i c then .next { s with idex := none, pc := s.pc - 1, stalls := s.stalls + 1 }
    else .next { s with idex := some {
      instr := i, ipc := f.ipc, a := regRead s.regs i.rs, b := regRead s.regs i.rt,
      imm := i.imm, dest := destOf i c, ctrl := c } }

/-- Drive the arithmetic unit for the instruction in Execute: the result and the zero flag after it (R147, R148). For a
jump the unit is not driven, the result is 0 and `zf` stays (40_units.md R115). No result where a lookup for J is asked
(R114). -/
def driveUnit (i : Instr) (sel : Option AluOp) (e : IdEx) (fa fb : Word) (s : State) : Option (Word × Bool) :=
  if e.ctrl.jump then some (0, s.zf)
  else sel.map fun op =>
    let o := operands s.params.shiftOperands i e.ctrl fa fb e.imm
    let res := aluResult op o.1 o.2
    (res, zeroFlag res)

/-- A taken transfer overwrites `pc` and flushes the Fetch→Decode latch (R157). -/
def redirect (target : Option Word) (s : State) : State :=
  match target with
  | none => s
  | some t => { s with pc := t, ifid := none }

/-- Execute (R145), with the selector `sel`. -/
def executeStage (i : Instr) (sel : Option AluOp) (s : State) : Result :=
  match s.idex with
  | none => .next { s with exmem := none }
  | some e =>
    let fa := forward s i.rs e.a
    let fb := forward s i.rt e.b
    match driveUnit i sel e fa fb s with
    | none => raise .unknownOpcode s
    | some (res, zf) =>
      .next (redirect (resolve i e.ctrl fa e.ipc e.imm zf) { s with
        zf := zf
        exmem := some { instr := i, ipc := e.ipc, alu := res, sd := fb, dest := e.dest, ctrl := e.ctrl } })

/-- The load of R141: the word read, or 0 for an instruction that is no load (R144). -/
def loadedWord (m : ExMem) (s : State) : Except ErrorKind Word :=
  if m.ctrl.memRead then memRead s.params s.dmem m.alu else .ok 0

/-- The store of R142: the memory after it, unchanged for an instruction that is no store. -/
def storedMemory (i : Instr) (m : ExMem) (s : State) : Except ErrorKind Memory :=
  if m.ctrl.memWrite then memWrite s.params s.dmem m.alu (storeData s i m) else .ok s.dmem

/-- Memory (R140). -/
def memoryStage (i : Instr) (s : State) : Result :=
  match s.exmem with
  | none => .next { s with memwb := none }
  | some m =>
    match loadedWord m s with
    | .error k => raise k s
    | .ok v =>
      match storedMemory i m s with
      | .error k => raise k s
      | .ok d => .next { s with
          dmem := d
          memwb := some { instr := i, ipc := m.ipc, alu := m.alu, mem := v, dest := m.dest, ctrl := m.ctrl } }

/-- Writeback (R135): it does not change the latch. -/
def writebackStage (s : State) : Result :=
  match s.memwb with
  | none => .next s
  | some w => .next (if w.ctrl.regWrite then { s with regs := regWrite s.regs w.dest (wbval w) } else s)

/-- The instruction's part in the stage procedure that is running. -/
def runStage (i : Instr) (c : Ctrl) (sel : Option AluOp) (s : State) : Result :=
  match s.phase with
  | .fetch => fetchStage i s
  | .decode => decodeStage i c s
  | .execute => executeStage i sel s
  | .memory => memoryStage i s
  | .writeback => writebackStage s

end Sys2Proof.Machine
end

