-- ==== Sys2Proof/Machine/Arith.lean ====
section
/-! DEFINITION. The meanings of ADD SUB AND OR XOR SLT SLL SRL ADDI ORI (42_arith_logic.md R180 to R194). A meaning is the
instruction's part in the stage that is running (`State.phase`): its control row and arithmetic selector over the shared
stage procedures, as the pipeline path of its rule says. -/

namespace Sys2Proof.Machine

/-- ADD (R181): control row ADD, selector `add`. -/
def execAdd (rd rs rt : Reg) (s : State) : Result := runStage (.add rd rs rt) ctrlRegReg (some .add) s

/-- SUB (R182): control row SUB, selector `sub`. -/
def execSub (rd rs rt : Reg) (s : State) : Result := runStage (.sub rd rs rt) ctrlRegReg (some .sub) s

/-- AND (R183): control row AND, selector `and`. -/
def execAnd (rd rs rt : Reg) (s : State) : Result := runStage (.and rd rs rt) ctrlRegReg (some .and) s

/-- OR (R184): control row OR, selector `or`. -/
def execOr (rd rs rt : Reg) (s : State) : Result := runStage (.or rd rs rt) ctrlRegReg (some .or) s

/-- XOR (R185): control row XOR, selector `xor`. -/
def execXor (rd rs rt : Reg) (s : State) : Result := runStage (.xor rd rs rt) ctrlRegReg (some .xor) s

/-- SLT (R186): control row SLT, selector `slt`. -/
def execSlt (rd rs rt : Reg) (s : State) : Result := runStage (.slt rd rs rt) ctrlRegReg (some .slt) s

/-- SLL (R187, R188): control row SLL, selector `sll`; what it shifts follows `SHIFT_OPERANDS`. -/
def execSll (rd rs rt : Reg) (shamt : BitVec 5) (s : State) : Result :=
  runStage (.sll rd rs rt shamt) ctrlRegReg (some .sll) s

/-- SRL (R189, R188): control row SRL, selector `srl`; what it shifts follows `SHIFT_OPERANDS`. -/
def execSrl (rd rs rt : Reg) (shamt : BitVec 5) (s : State) : Result :=
  runStage (.srl rd rs rt shamt) ctrlRegReg (some .srl) s

/-- ADDI (R191): control row ADDI, selector `add`. -/
def execAddi (rt rs : Reg) (imm : Word) (s : State) : Result := runStage (.addi rt rs imm) ctrlAddi (some .add) s

/-- ORI (R192): control row ORI, selector `or`; the immediate is sign-extended like every other (R77). -/
def execOri (rt rs : Reg) (imm : Word) (s : State) : Result := runStage (.ori rt rs imm) ctrlOri (some .or) s

end Sys2Proof.Machine
end

