-- ==== Sys2Proof/Machine/Control.lean ====
section
/-! DEFINITION. The meanings of BEQ, BGEZ and J (44_control_transfer.md R210 to R216). -/

namespace Sys2Proof.Machine

/-- BEQ (R211): control row BEQ, selector `sub`; taken iff the zero flag the subtract sets is 1. -/
def execBeq (rs rt : Reg) (imm : Word) (s : State) : Result := runStage (.beq rs rt imm) ctrlBeq (some .sub) s

/-- BGEZ (R212): control row BGEZ, selector `slt`, whose result decides nothing. -/
def execBgez (rs : Reg) (imm : Word) (s : State) : Result := runStage (.bgez rs imm) ctrlBgez (some .slt) s

/-- J (R213): control row J, no arithmetic selector (40_units.md R115). -/
def execJ (addr : Word) (s : State) : Result := runStage (.j addr) ctrlJ none s

end Sys2Proof.Machine
end

