-- ==== Sys2Proof/Machine/LoadStore.lean ====
section
/-! DEFINITION. The meanings of LW and SW (43_load_store.md R200 to R204). -/

namespace Sys2Proof.Machine

/-- LW (R201): control row LW, selector `add` for the address (R200). -/
def execLw (rt rs : Reg) (imm : Word) (s : State) : Result := runStage (.lw rt rs imm) ctrlLw (some .add) s

/-- SW (R202, R203): control row SW, selector `add` for the address (R200). -/
def execSw (rt rs : Reg) (imm : Word) (s : State) : Result := runStage (.sw rt rs imm) ctrlSw (some .add) s

end Sys2Proof.Machine
end

