-- ==== Sys2Proof/Machine/Cycle.lean ====
section
/-! DEFINITION. The cycle of 41_pipeline.md R130: the five stage procedures in the order Writeback, Memory, Execute,
Decode, Fetch, each run for the instruction its latch holds, through `exec`. A stage whose input latch is empty empties its
output latch (R135, R140, R145, R151, R155). -/

namespace Sys2Proof.Machine

/-- The start of a cycle: the counter (R162), and the snapshot taken before Writeback runs (R131). -/
def beginCycle (s : State) : State := { s with cycle := s.cycle + 1, snap := s.memwb }

/-- `WB()` (R135). -/
def writebackPhase (s : State) : Result :=
  match s.memwb with
  | none => .next { s with phase := .writeback }
  | some w => exec w.instr { s with phase := .writeback }

/-- `MEM()` (R140). -/
def memoryPhase (s : State) : Result :=
  match s.exmem with
  | none => .next { s with phase := .memory, memwb := none }
  | some m => exec m.instr { s with phase := .memory }

/-- `EX()` (R145). -/
def executePhase (s : State) : Result :=
  match s.idex with
  | none => .next { s with phase := .execute, exmem := none }
  | some e => exec e.instr { s with phase := .execute }

/-- `ID()` (R151). -/
def decodePhase (s : State) : Result :=
  match s.ifid with
  | none => .next { s with phase := .decode, idex := none }
  | some f => exec f.instr { s with phase := .decode }

/-- `IF()` (R155): a `pc` with bit 31 set raises; an absent slot, or an index at or beyond `PROG_LEN`, delivers nothing and
leaves `pc` as it is. -/
def fetchPhase (s : State) : Result :=
  if s.pc.msb then raise .invalidFetchAddress { s with phase := .fetch }
  else match slotAt s.imem s.pc with
    | none => .next { s with phase := .fetch, ifid := none }
    | some i => exec i { s with phase := .fetch }

/-- All four latches are empty. -/
def drained (s : State) : Bool := s.ifid.isNone && s.idex.isNone && s.exmem.isNone && s.memwb.isNone

/-- The check at the end of the cycle (R160). -/
def haltCheck (s : State) : State := if drained s then { s with halted := true } else s

/-- The core takes no step: it is halted or has faulted (R161). -/
def stopped (s : State) : Bool := s.halted || s.fault.isSome

/-- One cycle, "exactly once per step" (R130). A step requested of a stopped core changes nothing (R161). -/
def runCycle (s : State) : Result :=
  if stopped s then .next s
  else
    andThen (writebackPhase (beginCycle s)) fun s₁ =>
    andThen (memoryPhase s₁) fun s₂ =>
    andThen (executePhase s₂) fun s₃ =>
    andThen (decodePhase s₃) fun s₄ =>
    andThen (fetchPhase s₄) fun s₅ =>
    .next (haltCheck s₅)

/-- One instruction alone in the machine: its part in Fetch, Decode, Execute, Memory and Writeback, one after the other,
the snapshot of its last cycle taken as R131 says. -/
def passage (i : Instr) (s : State) : Result :=
  andThen (exec i { s with phase := .fetch, snap := none }) fun s₁ =>
  andThen (exec i { s₁ with phase := .decode }) fun s₂ =>
  andThen (exec i { s₂ with phase := .execute }) fun s₃ =>
  andThen (exec i { s₃ with phase := .memory }) fun s₄ =>
  exec i { s₄ with phase := .writeback, snap := s₄.memwb }

end Sys2Proof.Machine
end

