-- ==== Sys2Proof/WellFormed.lean ====
section
/-! DEFINITION. Which instructions are well-formed (30_encoding.md R71, R81; 92_eei_decisions.md D3, D4, D5): an
immediate fits 16 signed bits, a jump address fits 26 bits, and a shift leaves the field that its operand selection
does not use at 0. Everything else R71 asks of a record holds of every `Instr` by its type. -/

namespace Sys2Proof

/-- `imm` lies in -32768 to 32767 (R81, D4). -/
abbrev immFits (imm : Word) : Prop := -32768 ≤ s32 imm ∧ s32 imm ≤ 32767

/-- `addr` is below 2^26 (R81). -/
abbrev addrFits (addr : Word) : Prop := addr.toNat < 2 ^ 26


/-- The well-formed instructions under a choice of `SHIFT_OPERANDS`. -/
def Instr.wellFormed (so : ShiftOperands) : Instr → Bool
  | .add .. | .sub .. | .and .. | .or .. | .xor .. | .slt .. => true
  | .sll _ rs _ sh | .srl _ rs _ sh =>
    match so with
    | .rtShamt => rs == 0
    | .rsRt => sh == 0
  | .addi _ _ imm | .ori _ _ imm | .lw _ _ imm | .sw _ _ imm | .beq _ _ imm | .bgez _ imm => decide (immFits imm)
  | .j addr => decide (addrFits addr)

end Sys2Proof
end

