-- ==== Sys2Proof/Decode.lean ====
section
/-! DEFINITION. The binary encoding (30_encoding.md R72 to R81, R90 to R92): the decoder, total on all 2^32 words, and the
encoder. Under `SHIFT_OPERANDS = rs_rt` SLL and SRL decode with the mask 0xFC0007FF of ADD (42_arith_logic.md R188). -/

namespace Sys2Proof

/-- Why a word is no instruction (R78, R79, R80). Whatever the reason, the word is an absent slot (R90). -/
inductive Reject where
  /-- bits 31:26 are not in the table of R78 -/
  | noSuchOp
  /-- `op` = 0 and bits 5:0 are not in the table of R79 -/
  | noSuchFunct
  /-- bits 10:6 must be 0 and are not -/
  | shamtNotZero
  /-- bits 25:21 must be 0 and are not -/
  | rsNotZero
  /-- `op` = 1 and bits 20:16 are not 00001 -/
  | notBgez
  deriving DecidableEq, Repr

/-- `w[31:26]` (R73). -/
def opField (w : Word) : BitVec 6 := w.extractLsb' 26 6
/-- `w[25:21]` (R73). -/
def rsField (w : Word) : Reg := w.extractLsb' 21 5
/-- `w[20:16]` (R73). -/
def rtField (w : Word) : Reg := w.extractLsb' 16 5
/-- `w[15:11]` (R73). -/
def rdField (w : Word) : Reg := w.extractLsb' 11 5
/-- `w[10:6]` (R73). -/
def shField (w : Word) : BitVec 5 := w.extractLsb' 6 5
/-- `w[5:0]` (R73). -/
def fnField (w : Word) : BitVec 6 := w.extractLsb' 0 6
/-- `imm = sext_32(w[15:0])`, for every format I instruction, ORI included (R77, D4). -/
def immField (w : Word) : Word := (w.extractLsb' 0 16).signExtend 32
/-- `addr = zext_32(w[25:0])` (R77). -/
def addrField (w : Word) : Word := (w.extractLsb' 0 26).setWidth 32

/-- A three-register word of R79 whose bits 10:6 must be 0. -/
def decodeRegs (mk : Reg → Reg → Reg → Instr) (w : Word) : Except Reject Instr :=
  if shField w = 0 then .ok (mk (rdField w) (rsField w) (rtField w)) else .error .shamtNotZero

/-- A shift word: which of bits 25:21 and 10:6 must be 0 follows `SHIFT_OPERANDS` (R79, R188). -/
def decodeShift (so : ShiftOperands) (mk : Reg → Reg → Reg → BitVec 5 → Instr) (w : Word) : Except Reject Instr :=
  match so with
  | .rtShamt =>
    if rsField w = 0 then .ok (mk (rdField w) 0 (rtField w) (shField w)) else .error .rsNotZero
  | .rsRt =>
    if shField w = 0 then .ok (mk (rdField w) (rsField w) (rtField w) 0) else .error .shamtNotZero

/-- Format R: selected by `funct` (R79). -/
def decodeFormatR (so : ShiftOperands) (w : Word) : Except Reject Instr :=
  if fnField w = 0x20 then decodeRegs .add w
  else if fnField w = 0x22 then decodeRegs .sub w
  else if fnField w = 0x24 then decodeRegs .and w
  else if fnField w = 0x25 then decodeRegs .or w
  else if fnField w = 0x26 then decodeRegs .xor w
  else if fnField w = 0x2A then decodeRegs .slt w
  else if fnField w = 0x00 then decodeShift so .sll w
  else if fnField w = 0x02 then decodeShift so .srl w
  else .error .noSuchFunct

/-- `decode(w)` of R80, saying why where it answers none. -/
def decodeWith (so : ShiftOperands) (w : Word) : Except Reject Instr :=
  if opField w = 0x00 then decodeFormatR so w
  else if opField w = 0x08 then .ok (.addi (rtField w) (rsField w) (immField w))
  else if opField w = 0x0D then .ok (.ori (rtField w) (rsField w) (immField w))
  else if opField w = 0x23 then .ok (.lw (rtField w) (rsField w) (immField w))
  else if opField w = 0x2B then .ok (.sw (rtField w) (rsField w) (immField w))
  else if opField w = 0x04 then .ok (.beq (rsField w) (rtField w) (immField w))
  else if opField w = 0x01 then
    if rtField w = 1 then .ok (.bgez (rsField w) (immField w)) else .error .notBgez
  else if opField w = 0x02 then .ok (.j (addrField w))
  else .error .noSuchOp

/-- An occupied slot for a word that decodes, an absent slot for one that does not (R90). -/
def slotOfWord (so : ShiftOperands) (w : Word) : Option Instr := (decodeWith so w).toOption

/-- `decode` of R80, under the default operand selection. -/
def decode (w : Word) : Option Instr := slotOfWord .rtShamt w

/-- A word of format R (R73). -/
def wordR (rs rt rd : Reg) (sh : BitVec 5) (fn : BitVec 6) : Word := (0 : BitVec 6) ++ rs ++ rt ++ rd ++ sh ++ fn
/-- A word of format I (R74): `imm[15:0]` goes into bits 15:0. -/
def wordI (op : BitVec 6) (rs rt : Reg) (imm : Word) : Word := op ++ rs ++ rt ++ imm.setWidth 16
/-- A word of format J (R75): `addr[25:0]` goes into bits 25:0. -/
def wordJ (addr : Word) : Word := (0x02 : BitVec 6) ++ addr.setWidth 26

/-- `encode(record)` of R81. It is meant for well-formed instructions. -/
def encode : Instr → Word
  | .add rd rs rt => wordR rs rt rd 0 0x20
  | .sub rd rs rt => wordR rs rt rd 0 0x22
  | .and rd rs rt => wordR rs rt rd 0 0x24
  | .or rd rs rt => wordR rs rt rd 0 0x25
  | .xor rd rs rt => wordR rs rt rd 0 0x26
  | .slt rd rs rt => wordR rs rt rd 0 0x2A
  | .sll rd rs rt sh => wordR rs rt rd sh 0x00
  | .srl rd rs rt sh => wordR rs rt rd sh 0x02
  | .addi rt rs imm => wordI 0x08 rs rt imm
  | .ori rt rs imm => wordI 0x0D rs rt imm
  | .lw rt rs imm => wordI 0x23 rs rt imm
  | .sw rt rs imm => wordI 0x2B rs rt imm
  | .beq rs rt imm => wordI 0x04 rs rt imm
  | .bgez rs imm => wordI 0x01 rs 1 imm
  | .j addr => wordJ addr

/-- The instruction the decoder reads from a table row's word: every instruction is one 32-bit word (R72), numbered as
opcode_table.json numbers it. -/
def decodeTableWord (nbits w : Nat) : Option Instr :=
  if nbits ≤ 32 ∧ w < 2 ^ 32 then decode (BitVec.ofNat 32 w) else none

/-! The record interface of the loader (R70, R71, R244). -/

/-- The whole record of an instruction: used fields as they are, unused fields 0 (R70, R71). -/
def Instr.toRecord (i : Instr) : Record where
  opcode := i.opcode
  format := i.opcode.format
  rs := i.rs.toNat
  rt := i.rt.toNat
  rd := i.rd.toNat
  imm := s32 i.imm
  shamt := i.shamt.toNat
  addr := i.addr.toNat

/-- The instruction whose fields are a record's low bits; `recordInstr` keeps it only where nothing was lost. -/
def Record.truncate (r : Record) : Instr :=
  let rs : Reg := BitVec.ofNat 5 r.rs
  let rt : Reg := BitVec.ofNat 5 r.rt
  let rd : Reg := BitVec.ofNat 5 r.rd
  let imm : Word := BitVec.ofInt 32 r.imm
  let sh : BitVec 5 := BitVec.ofNat 5 r.shamt
  match r.opcode with
  | .ADD => .add rd rs rt
  | .SUB => .sub rd rs rt
  | .AND => .and rd rs rt
  | .OR => .or rd rs rt
  | .XOR => .xor rd rs rt
  | .SLT => .slt rd rs rt
  | .SLL => .sll rd rs rt sh
  | .SRL => .srl rd rs rt sh
  | .ADDI => .addi rt rs imm
  | .ORI => .ori rt rs imm
  | .LW => .lw rt rs imm
  | .SW => .sw rt rs imm
  | .BEQ => .beq rs rt imm
  | .BGEZ => .bgez rs imm
  | .J => .j (BitVec.ofNat 32 r.addr)

/-- The well-formed instruction a record stands for, or none for a record outside the well-formed set: a register index
of 32 or more, a non-zero unused field, a wrong format tag, an immediate, shift amount or address that does not fit
(R71, R223; 93_implementation_defined.md U3, U14). -/
def recordInstr (so : ShiftOperands) (r : Record) : Option Instr :=
  let i := r.truncate
  if i.wellFormed so ∧ i.toRecord = r then some i else none

end Sys2Proof
end

