-- ==== Sys2Proof/Machine/Loader.lean ====
section
/-! DEFINITION. The host's interfaces that write state: the loader, the presets and the toggles (60_exceptions.md R243,
R244, R246; 10_state.md R46; 70_reset_and_hazards.md R252 to R255). The host acts between cycles only. -/

namespace Sys2Proof.Machine

/-- No step has run since reset, and nothing has stopped the core: the only time the host may load or preset (R46, R252,
R255). `cycle` counts the executed steps (R162). -/
def fresh (s : State) : Bool := s.cycle == 0 && !s.halted && s.fault.isNone

/-- Install the whole instruction store (R244): refused without a reset before it (U12) or beyond 2^31 slots (R9). -/
def installStore (im : Store) (s : State) : Result :=
  if !fresh s then .refused .loadWithoutReset
  else if maxProgLen < im.length then .refused .programTooLong
  else .next { s with imem := im }

/-- Load instruction words: each is passed through `decode`, and one that is no instruction is an absent slot (R90, R244). -/
def loadWords (ws : List Word) (s : State) : Result :=
  installStore (ws.map (slotOfWord s.params.shiftOperands)) s

/-- The slots of a sequence of optional records, or none if one of them is outside the well-formed set (U14). -/
def slotsOfRecords (so : ShiftOperands) : List (Option Record) → Option Store
  | [] => some []
  | none :: rs => (slotsOfRecords so rs).map (none :: ·)
  | some r :: rs => (recordInstr so r).bind fun i => (slotsOfRecords so rs).map (some i :: ·)

/-- Load already-parsed records, null for an absent slot (R244). -/
def loadRecords (rs : List (Option Record)) (s : State) : Result :=
  match slotsOfRecords s.params.shiftOperands rs with
  | none => .refused .illFormedRecord
  | some im => installStore im s

/-- Preset `x[idx]` (R46). A preset of `x[0]` has no effect; an index outside [0,32) fails as R22 says. -/
def presetReg (idx : Nat) (v : Word) (s : State) : Result :=
  if !fresh s then .refused .presetDuringRun
  else match regWriteAt s.regs idx v with
    | .error k => raise k s
    | .ok f => .next { s with regs := f }

/-- Preset `DMEM[k]` (R46). An index outside the capacity fails as R53 says. -/
def presetMem (k : Nat) (v : Word) (s : State) : Result :=
  if !fresh s then .refused .presetDuringRun
  else if s.params.memWords ≤ k then raise .memoryOutOfBounds s
  else .next { s with dmem := memSet s.dmem k v }

/-- Set the two toggles (R246). -/
def setToggles (hazardEn fwdEn : Bool) (s : State) : Result :=
  if !fresh s then .refused .presetDuringRun
  else .next { s with hazardEn := hazardEn, fwdEn := fwdEn }

/-- The store with slot `k` holding `x`, absent slots added up to it where the store is shorter. -/
def slotPut (im : Store) (k : Nat) (x : Option Instr) : Store :=
  if k < im.length then im.set k x else im ++ List.replicate (k - im.length) none ++ [x]

/-- The machine with one instruction word in the slot that the next Fetch reads, and nothing in flight or stopped that would
keep that Fetch from it (R155, R161). A `pc` that names no slot at all (bit 31 set) is put to 0. -/
def placeWord (so : ShiftOperands) (w : Word) (s : State) : State :=
  let pc : Word := if s.pc.msb then 0 else s.pc
  { s with
    pc := pc
    imem := slotPut s.imem pc.toNat (slotOfWord so w)
    ifid := none, idex := none, exmem := none, memwb := none
    halted := false, fault := none }

end Sys2Proof.Machine
end

