-- ==== Sys2Proof/Machine/Step.lean ====
section
/-! DEFINITION. One step is one cycle (00_scope.md R13, 41_pipeline.md R130, R163). -/

namespace Sys2Proof.Machine

/-- D0's `step`: one execution of the per-cycle protocol. -/
def step (s : State) : Host.Outcome State Fault Refusal := runCycle s

/-- `s` with a table row's word in the slot the next step fetches (log entry 6 says how a program comes to run). -/
def State.withFetchWord (s : State) (nbits w : Nat) : State :=
  if nbits ≤ 32 then placeWord s.params.shiftOperands (BitVec.ofNat 32 w) s else s

end Sys2Proof.Machine
end

