-- ==== Sys2Proof/Machine/NextState.lean ====
section
/-! DEFINITION. The equivalent next-state form of 41_pipeline.md R166: the cycle as one function of the values at its start,
with the three cases taken, hazard and otherwise. It is written from R166 alone, for the claim that the cycle of R130
computes it; no step uses it. -/

namespace Sys2Proof.Machine

/-- What the Execute stage contributes: the new Execute→Memory latch, the zero flag and the target of a taken transfer. -/
structure ExecuteOut where
  exmem : Option ExMem
  zf : Bool
  target : Option Word
  deriving DecidableEq, Repr

/-- `EXMEM1`, `taken`, `target` from `IDEX0`, with forwarding from `EXMEM0` and `MEMWB0`, which `s` holds as `exmem` and
`snap`. None for the lookup of J's operation (R114). -/
def executeOut (s : State) : Option ExecuteOut :=
  match s.idex with
  | none => some ⟨none, s.zf, none⟩
  | some e =>
    let i := e.instr
    let fa := forward s i.rs e.a
    let fb := forward s i.rt e.b
    (if e.ctrl.jump then some ((0 : Word), s.zf)
     else (aluOpOf i.opcode).map fun op =>
       let o := operands s.params.shiftOperands i e.ctrl fa fb e.imm
       (aluResult op o.1 o.2, aluResult op o.1 o.2 == 0)).map fun r =>
      ⟨some ⟨i, e.ipc, r.1, fb, e.dest, e.ctrl⟩, r.2, resolve i e.ctrl fa e.ipc e.imm r.2⟩

/-- `fetch(k)` of R166. -/
def fetchAt (im : Store) (k : Word) : Option IfId := (slotAt im k).map fun i => ⟨i, k⟩

/-- `pc1` after a fetch at `k`: `k + 1` if the fetch delivered, else `k`. -/
def pcAfterFetch (im : Store) (k : Word) : Word := if (slotAt im k).isSome then k + 1 else k

/-- The decode of `IFID0` against a register file. -/
def decodeOf (f : IfId) (regs : RegFile) : IdEx :=
  let c := decodeCtrl f.instr.opcode
  ⟨f.instr, f.ipc, regRead regs f.instr.rs, regRead regs f.instr.rt, f.instr.imm, destOf f.instr c, c⟩

/-- The front end: `IFID1`, `IDEX1`, `pc1` and the counter, in the three cases of R166, from the start values in `s0` and
the register file after this cycle's write. A fetch at an index with bit 31 set is the error of R155; `none` says so. -/
def frontEnd (s0 : State) (target : Option Word) (regs : RegFile) : Option (Option IfId × Option IdEx × Word × Nat) :=
  match target with
  | some t =>
    if t.msb then none else some (fetchAt s0.imem t, none, pcAfterFetch s0.imem t, s0.stalls)
  | none =>
    match s0.ifid with
    | some f =>
      if hazard s0 f.instr (decodeCtrl f.instr.opcode) then some (some f, none, s0.pc, s0.stalls + 1)
      else if s0.pc.msb then none
      else some (fetchAt s0.imem s0.pc, some (decodeOf f regs), pcAfterFetch s0.imem s0.pc, s0.stalls)
    | none =>
      if s0.pc.msb then none
      else some (fetchAt s0.imem s0.pc, none, pcAfterFetch s0.imem s0.pc, s0.stalls)

/-- The Memory stage: `MEMWB1` and the memory from `EXMEM0`, with `snap = MEMWB0`. -/
def memoryOut (s : State) : Except ErrorKind (Option MemWb × Memory) :=
  match s.exmem with
  | none => .ok (none, s.dmem)
  | some m =>
    match loadedWord m s, storedMemory m.instr m s with
    | .ok v, .ok d => .ok (some ⟨m.instr, m.ipc, m.alu, v, m.dest, m.ctrl⟩, d)
    | .error k, _ => .error k
    | _, .error k => .error k

/-- What the cycle answers by R166: the next state, or the kind of the error it raises. -/
def nextState (s : State) : Except ErrorKind State :=
  let s0 := { s with snap := s.memwb }
  let regs := match s.memwb with
    | none => s.regs
    | some w => if w.ctrl.regWrite then regWrite s.regs w.dest (wbval w) else s.regs
  match memoryOut s0 with
  | .error k => .error k
  | .ok (memwb1, dmem1) =>
    match executeOut s0 with
    | none => .error .unknownOpcode
    | some x =>
      match frontEnd s x.target regs with
      | none => .error .invalidFetchAddress
      | some (ifid1, idex1, pc1, stalls1) =>
        .ok { s with
          regs := regs, dmem := dmem1, zf := x.zf, pc := pc1, snap := s.memwb
          ifid := ifid1, idex := idex1, exmem := x.exmem, memwb := memwb1
          cycle := s.cycle + 1, stalls := stalls1, phase := .fetch
          halted := s.halted || (ifid1.isNone && idex1.isNone && x.exmem.isNone && memwb1.isNone) }

end Sys2Proof.Machine
end

