-- ==== Sys2Proof/Machine/Observer.lean ====
section
/-! DEFINITION. The observer interface and the drivers (60_exceptions.md R241, R245; 41_pipeline.md R163, R164). Reading
changes nothing. -/

namespace Sys2Proof.Machine

/-- A stage label: what the stage worked on in the cycle just ended, as (`ipc`, instruction), or nothing (R164). -/
abbrev Label := Option (Word × Instr)

/-- The five labels (R164). -/
structure Labels where
  fetch : Label
  decode : Label
  execute : Label
  memory : Label
  writeback : Label
  deriving DecidableEq, Repr

/-- Fetch = `IFID`, Decode = `IDEX`, Execute = `EXMEM`, Memory = `MEMWB`, Writeback = the cycle's snapshot (R164, D25). -/
def labels (s : State) : Labels where
  fetch := s.ifid.map fun l => (l.ipc, l.instr)
  decode := s.idex.map fun l => (l.ipc, l.instr)
  execute := s.exmem.map fun l => (l.ipc, l.instr)
  memory := s.memwb.map fun l => (l.ipc, l.instr)
  writeback := s.snap.map fun l => (l.ipc, l.instr)

/-- What the host polls between cycles, register file and memory apart (R245). -/
structure Observation where
  labels : Labels
  cycle : Nat
  stalls : Nat
  halted : Bool
  fault : Option ErrorKind
  deriving DecidableEq, Repr

/-- The polled values (R245), and `fault`, without which the host cannot tell a faulted core from a running one (R241). -/
def observe (s : State) : Observation where
  labels := labels s
  cycle := s.cycle
  stalls := s.stalls
  halted := s.halted
  fault := s.fault

/-- Direct read access to the register file (R245), failing as R22 says. -/
def observeReg (s : State) (idx : Nat) : Except ErrorKind Word := regReadAt s.regs idx

/-- Direct read access to `DMEM[k]` (R58, R245), failing outside the capacity (R53). -/
def observeMem (s : State) (k : Nat) : Except ErrorKind Word :=
  if k < s.params.memWords then .ok (memGet s.dmem k) else .error .memoryOutOfBounds

/-- How the run-to-completion driver ended within its fuel. -/
inductive RunEnd where
  /-- `halted = 1`, or the state it was given had faulted already (R241) -/
  | stopped (s : State)
  /-- a fatal error (R220) -/
  | faulted (f : Fault)
  /-- a refusal; no step of this core answers one -/
  | refused (r : Refusal)
  /-- not over yet: a program need not halt (R163) -/
  | running (s : State)
  deriving DecidableEq, Repr

/-- `run()`: step while not halted and not faulted (R163), at most `fuel` steps. -/
def runToEnd : Nat → State → RunEnd
  | 0, s => if stopped s then .stopped s else .running s
  | n + 1, s =>
    if stopped s then .stopped s
    else match step s with
      | .next t => runToEnd n t
      | .fault f => .faulted f
      | .refused r => .refused r

end Sys2Proof.Machine
end

