-- ==== Sys2Proof/Machine/Ports.lean ====
section
/-! DEFINITION. The ports of a hardware build (60_exceptions.md R247, D20): one rising edge of `clk`. The spec calls the list
illustrative and no rule depends on it; what it leaves open is log entry 9. -/

namespace Sys2Proof.Machine

/-- The inputs of R247, sampled at the edge. -/
structure PortsIn where
  rst : Bool
  stepEn : Bool
  cfgHazardEn : Bool
  cfgFwdEn : Bool
  /-- the loader port: (slot index, instruction word) -/
  load : Option (Nat × Word)
  /-- the preset port on the registers -/
  presetX : Option (Reg × Word)
  /-- the preset port on the data memory: (word index, word) -/
  presetM : Option (Nat × Word)
  /-- the register the register file's read port selects -/
  readX : Reg
  /-- the word index the data memory's read port selects -/
  readM : Nat
  deriving DecidableEq, Repr

/-- The loader port writes a slot (R247). -/
def portLoad (p : PortsIn) (s : State) : State :=
  match p.load with
  | none => s
  | some (k, w) => if k < maxProgLen then { s with imem := slotPut s.imem k (slotOfWord s.params.shiftOperands w) } else s

/-- The register preset port (R46, R247). -/
def portPresetX (p : PortsIn) (s : State) : State :=
  match p.presetX with
  | none => s
  | some (r, v) => { s with regs := regWrite s.regs r v }

/-- The memory preset port (R46, R247); an index outside the capacity selects no word. -/
def portPresetM (p : PortsIn) (s : State) : State :=
  match p.presetM with
  | none => s
  | some (k, v) => if k < s.params.memWords then { s with dmem := memSet s.dmem k v } else s

/-- While no step has run the toggles follow their inputs and the preset port writes; afterwards neither changes anything
(R246, R255). -/
def portPresets (p : PortsIn) (s : State) : State :=
  if fresh s then portPresetM p (portPresetX p { s with hazardEn := p.cfgHazardEn, fwdEn := p.cfgFwdEn }) else s

/-- One rising edge of `clk` (R247): `rst` establishes R45 and leaves the instruction store to the loader port; otherwise
`step_en` runs one cycle unless the core is halted or faulted. A core that is not stepped holds its state (R239). A fatal
error leaves what its completed stages left, with `fault` set (R220). -/
def clockEdge (p : PortsIn) (s : State) : State :=
  if p.rst then portLoad p { State.resetWith s.params with imem := s.imem }
  else
    let s := portPresets p s
    if p.stepEn then
      match step s with
      | .next t => t
      | .fault (.raised _ t) => t
      | .refused _ => s
    else s

/-- The 3-bit kind of the output `fault`. R247 gives no codes: they are numbered here in the order of R221 to R225
(DESIGN CHOICE, log entry 9). -/
def faultKindCode : ErrorKind → BitVec 3
  | .unknownOpcode => 0
  | .unknownArithmeticOperation => 1
  | .invalidRegisterIndex => 2
  | .memoryOutOfBounds => 3
  | .invalidFetchAddress => 4

/-- A stage label as a port: the valid bit is the option's tag, and a valid label carries `ipc` and the instruction word,
which is the encoding of the instruction (R81). -/
abbrev LabelPort := Option (Word × Word)

/-- A label of R164 as the port shows it. -/
def labelPort (l : Label) : LabelPort := l.map fun x => (x.1, encode x.2)

/-- The outputs of R247. The valid bit of an output that has one is the option's tag, so that an output that is not valid
carries no value. -/
structure PortsOut where
  halted : Bool
  /-- valid bit and 3-bit kind -/
  fault : Option (BitVec 3)
  cycle : Nat
  stalls : Nat
  fetch : LabelPort
  decode : LabelPort
  execute : LabelPort
  memory : LabelPort
  writeback : LabelPort
  /-- the read port on the register file -/
  xData : Option Word
  /-- the read port on the data memory -/
  mData : Option Word
  deriving DecidableEq, Repr

/-- The outputs in a state (R247). The two read ports are usable while `step_en = 0`; one of the data memory shows nothing for
an index outside the capacity. -/
def portsOut (p : PortsIn) (s : State) : PortsOut where
  halted := s.halted
  fault := s.fault.map faultKindCode
  cycle := s.cycle
  stalls := s.stalls
  fetch := labelPort (labels s).fetch
  decode := labelPort (labels s).decode
  execute := labelPort (labels s).execute
  memory := labelPort (labels s).memory
  writeback := labelPort (labels s).writeback
  xData := if p.stepEn then none else some (regRead s.regs p.readX)
  mData := if p.stepEn then none else (observeMem s p.readM).toOption

end Sys2Proof.Machine
end

