-- ==== Sys2Proof/Machine/Sequential.lean ====
section
/-! DEFINITION. Executing a program one instruction at a time: the "architectural effect" of each instruction
(42_arith_logic.md, 43_load_store.md, 44_control_transfer.md) and the sequential execution of 41_pipeline.md R167. It is a
second machine beside the pipeline, for claims; no step of the pipeline uses it. -/

namespace Sys2Proof.Machine

/-- What sequential execution works on: the register file, the data memory and the current index. -/
structure ArchState where
  regs : RegFile
  mem : Memory
  pc : Word
  deriving DecidableEq, Repr

/-- How executing one instruction, or a run, comes out. -/
inductive SeqResult where
  | next (a : ArchState)
  /-- the index is out of range or the slot absent: the end of the program -/
  | ended (a : ArchState)
  | fault (kind : ErrorKind)
  deriving DecidableEq, Repr

/-- `x[r] <- v`, and on to the next index. -/
def archWrite (a : ArchState) (r : Reg) (v : Word) : SeqResult :=
  .next { a with regs := regWrite a.regs r v, pc := a.pc + 1 }

/-- On to the target of a taken transfer, or to the next index. -/
def archBranch (a : ArchState) (taken : Bool) (imm : Word) : SeqResult :=
  .next { a with pc := if taken then a.pc + 1 + imm else a.pc + 1 }

/-- The value shifted and the count of SLL and SRL (R187 to R189). -/
def archShift (p : Params) (a : ArchState) (rs rt : Reg) (shamt : BitVec 5) : Word × Nat :=
  match p.shiftOperands with
  | .rtShamt => (regRead a.regs rt, shamt.toNat)
  | .rsRt => (regRead a.regs rs, (regRead a.regs rt).toNat % 32)

/-- The architectural effect of an instruction (R181 to R192, R201, R202, R211 to R213). -/
def archEffect (p : Params) (i : Instr) (a : ArchState) : SeqResult :=
  let x := regRead a.regs
  match i with
  | .add rd rs rt => archWrite a rd (x rs + x rt)
  | .sub rd rs rt => archWrite a rd (x rs - x rt)
  | .and rd rs rt => archWrite a rd (x rs &&& x rt)
  | .or rd rs rt => archWrite a rd (x rs ||| x rt)
  | .xor rd rs rt => archWrite a rd (x rs ^^^ x rt)
  | .slt rd rs rt => archWrite a rd (if s32 (x rs) < s32 (x rt) then 1 else 0)
  | .sll rd rs rt sh => archWrite a rd ((archShift p a rs rt sh).1 <<< (archShift p a rs rt sh).2)
  | .srl rd rs rt sh => archWrite a rd ((archShift p a rs rt sh).1 >>> (archShift p a rs rt sh).2)
  | .addi rt rs imm => archWrite a rt (x rs + imm)
  | .ori rt rs imm => archWrite a rt (x rs ||| imm)
  | .lw rt rs imm =>
    match memRead p a.mem (x rs + imm) with
    | .error k => .fault k
    | .ok v => archWrite a rt v
  | .sw rt rs imm =>
    match memWrite p a.mem (x rs + imm) (x rt) with
    | .error k => .fault k
    | .ok m => .next { a with mem := m, pc := a.pc + 1 }
  | .beq rs rt imm => archBranch a (x rs == x rt) imm
  | .bgez rs imm => archBranch a (decide (0 ≤ s32 (x rs))) imm
  | .j addr => .next { a with pc := addr }

/-- Execute the instruction at the current index; an index with bit 31 set is the error of R225. -/
def seqStep (p : Params) (im : Store) (a : ArchState) : SeqResult :=
  if a.pc.msb then .fault .invalidFetchAddress
  else match slotAt im a.pc with
    | none => .ended a
    | some i => archEffect p i a

/-- At most `n` instructions, stopping at the end of the program or at an error. -/
def seqRun (p : Params) (im : Store) : Nat → ArchState → SeqResult
  | 0, a => .next a
  | n + 1, a =>
    match seqStep p im a with
    | .next b => seqRun p im n b
    | .ended b => .ended b
    | .fault k => .fault k

/-! The architectural state a pipeline state stands for: the instructions that have passed Execute are completed, and the
next to execute is the oldest one that has not. -/

/-- The register file with a Memory→Writeback latch written back. -/
def completeMemWb (l : Option MemWb) (f : RegFile) : RegFile :=
  match l with
  | none => f
  | some w => if w.ctrl.regWrite then regWrite f w.dest (wbval w) else f

/-- The index of the oldest instruction that has not passed Execute, or the one Fetch reads next. -/
def nextIndex (s : State) : Word :=
  match s.idex, s.ifid with
  | some e, _ => e.ipc
  | none, some f => f.ipc
  | none, none => s.pc

/-- Complete what is in the Memory→Writeback and Execute→Memory latches: both instructions have passed Execute. -/
def archOf (s : State) : Except ErrorKind ArchState :=
  let f := completeMemWb s.memwb s.regs
  match s.exmem with
  | none => .ok ⟨f, s.dmem, nextIndex s⟩
  | some m =>
    let s' := { s with snap := s.memwb }
    match loadedWord m s' with
    | .error k => .error k
    | .ok v =>
      match storedMemory m.instr m s' with
      | .error k => .error k
      | .ok d => .ok ⟨completeMemWb (some ⟨m.instr, m.ipc, m.alu, v, m.dest, m.ctrl⟩) f, d, nextIndex s⟩

end Sys2Proof.Machine
end

