-- ==== Sys2Proof/Safety.lean ====
section
/-! DEFINITION. What counts as a good state and a safe run, in the terms the claims use: the form of the stored data, the
invariants of the pipeline (41_pipeline.md R165), and runs. -/

namespace Sys2Proof.Machine

/-- The form of the stored data: slot 0 of the register file holds 0 (R21), the memory is canonical, and every listed word
lies inside the capacity (R41). -/
structure DataInv (s : State) : Prop where
  zeroSlot : s.regs[0] = 0
  memCanonical : s.dmem.wf = true
  memInside : ∀ cell ∈ s.dmem, cell.1 < s.params.memWords

/-- A latch's control bundle and destination are those of its instruction: the bundle is a pure function of the opcode,
computed once and never changed (R31, R110), the destination is that of R150. -/
abbrev carries (i : Instr) (dest : Reg) (c : Ctrl) : Prop := c = decodeCtrl i.opcode ∧ dest = destOf i c

/-- What holds at every cycle boundary of a run from reset (R36, R165). -/
structure PipeInv (s : State) : Prop where
  /-- `PROG_LEN <= 2^31` (R9) -/
  progLen : s.imem.length ≤ maxProgLen
  /-- with a shorter program, `pc` never has bit 31 set between cycles (R25, R155) -/
  pcLow : s.imem.length < maxProgLen → s.pc.msb = false
  /-- an instruction in a latch is the one in its slot of the store (R32, R36) -/
  ifidSlot : ∀ f, s.ifid = some f → slotAt s.imem f.ipc = some f.instr
  idexSlot : ∀ e, s.idex = some e → slotAt s.imem e.ipc = some e.instr
  exmemSlot : ∀ m, s.exmem = some m → slotAt s.imem m.ipc = some m.instr
  memwbSlot : ∀ w, s.memwb = some w → slotAt s.imem w.ipc = some w.instr
  /-- `pc = IFID.ipc + 1` (R165 (c)) -/
  ifidPc : ∀ f, s.ifid = some f → s.pc = f.ipc + 1
  /-- the instruction behind the one in Decode→Execute is its successor in the store (R165 (a)) -/
  idexNext : ∀ e, s.idex = some e → (match s.ifid with | some f => f.ipc | none => s.pc) = e.ipc + 1
  /-- the operands in Decode→Execute are what the register file holds (R33) -/
  idexRs : ∀ e, s.idex = some e → e.a = regRead s.regs e.instr.rs
  idexRt : ∀ e, s.idex = some e → e.b = regRead s.regs e.instr.rt
  idexImm : ∀ e, s.idex = some e → e.imm = e.instr.imm
  idexCtrl : ∀ e, s.idex = some e → carries e.instr e.dest e.ctrl
  exmemCtrl : ∀ m, s.exmem = some m → carries m.instr m.dest m.ctrl
  memwbCtrl : ∀ w, s.memwb = some w → carries w.instr w.dest w.ctrl
  /-- with hazard detection on, the instruction behind a load was checked against it (R152, R153) -/
  loadUse : s.hazardEn = true → ∀ m e, s.exmem = some m → s.idex = some e →
    ¬ (m.ctrl.memRead = true ∧ m.dest ≠ 0 ∧ comparesWith s.params e.instr e.ctrl m.dest = true)
  /-- a halted core has drained (R160) -/
  haltedDrained : s.halted = true → drained s = true

/-- The state a run starts from: nothing in flight, not stopped, `pc` below bit 31, a program shorter than 2^31 slots (log
entry 10 says why not of 2^31). Reset, a load and presets give one. -/
structure RunStart (s : State) : Prop where
  running : stopped s = false
  empty : drained s = true
  pcLow : s.pc.msb = false
  progLen : s.imem.length < maxProgLen

/-- The architectural state a run starts from. -/
abbrev archStart (s : State) : ArchState := ⟨s.regs, s.dmem, s.pc⟩

/-- Both toggles on, and the Memory stage forwards store data: the setting of R167 and R260. -/
abbrev defaultSetting (s : State) : Prop := s.hazardEn = true ∧ s.fwdEn = true ∧ s.params.memStoreFwd = true

/-- One instruction has the machine to itself: the core is not stopped, nothing is in flight, `i` is in the slot the next
Fetch reads, and neither the slot behind it nor the slot at `target`, where it goes on to, holds anything. -/
structure AloneAt (i : Instr) (target : Word) (s : State) : Prop where
  running : stopped s = false
  empty : drained s = true
  pcLow : s.pc.msb = false
  here : slotAt s.imem s.pc = some i
  nextLow : (s.pc + 1).msb = false
  nextAbsent : slotAt s.imem (s.pc + 1) = none
  targetLow : target.msb = false
  targetAbsent : slotAt s.imem target = none

/-- A run of `n` steps from `s` that meets no fatal error and ends in `t`. -/
abbrev SafeRun (n : Nat) (s t : State) : Prop := Host.Core.run Sys2Proof.core n s = .next t

end Sys2Proof.Machine
end

