-- ==== Sys2Proof/Certificates/Slice0/Obligations.lean ====
section
/-! DEFINITION. The statements for the provers. Each docstring says which rule of the spec it formalises. -/

open Sys2Proof Sys2Proof.Machine

/-! ## Encoding -/

/-- The mask of each instruction (30_encoding.md R80). -/
def Sys2Proof.specMask : Opcode → Word
  | .ADD | .SUB | .AND | .OR | .XOR | .SLT => 0xFC0007FF
  | .SLL | .SRL => 0xFFE0003F
  | .ADDI | .ORI | .LW | .SW | .BEQ | .J => 0xFC000000
  | .BGEZ => 0xFC1F0000

/-- The match of each instruction (30_encoding.md R80). -/
def Sys2Proof.specMatch : Opcode → Word
  | .ADD => 0x00000020 | .SUB => 0x00000022 | .AND => 0x00000024 | .OR => 0x00000025 | .XOR => 0x00000026
  | .SLT => 0x0000002A | .SLL => 0x00000000 | .SRL => 0x00000002 | .ADDI => 0x20000000 | .ORI => 0x34000000
  | .LW => 0x8C000000 | .SW => 0xAC000000 | .BEQ => 0x10000000 | .BGEZ => 0x04010000 | .J => 0x08000000

/-- Words of 95_test_vectors.md section 2.3, one of every format and some that are none, decode as written there. -/
def Obligations.SpecWordsDecode : Prop :=
  decode 0x00221820 = some (.add 3 1 2) ∧ decode 0x00021902 = some (.srl 3 0 2 4) ∧
  decode 0x3402FFFF = some (.ori 2 0 0xFFFFFFFF) ∧ decode 0x8C220000 = some (.lw 2 1 0) ∧
  decode 0xAC220004 = some (.sw 2 1 4) ∧ decode 0x10220001 = some (.beq 1 2 1) ∧
  decode 0x0421FFFE = some (.bgez 1 0xFFFFFFFE) ∧ decode 0x0BFFFFFF = some (.j 0x03FFFFFF) ∧
  decode 0x00000060 = none ∧ decode 0x00200002 = none ∧ decode 0x04000000 = none ∧ decode 0x0C000000 = none

/-- R81: decode of encode is the instruction, for every well-formed instruction and either operand selection of the shifts,
and the encoding is the only word that decodes to it. -/
def Obligations.EncodeDecodeRoundTrip : Prop :=
  ∀ (so : ShiftOperands) (i : Instr), i.wellFormed so = true →
    decodeWith so (encode i) = .ok i ∧ ∀ w : Word, decodeWith so w = .ok i → w = encode i

/-- R71, last sentence: the decoder produces only well-formed records. -/
def Obligations.DecoderYieldsOnlyWellFormed : Prop :=
  ∀ (so : ShiftOperands) (w : Word) (i : Instr), decodeWith so w = .ok i → i.wellFormed so = true

/-- R80: a word is instruction X iff its masked bits match X, and no word matches two. -/
def Obligations.WordsMatchOneMask : Prop :=
  (∀ (w : Word) (op : Opcode), (∃ i, decode w = some i ∧ i.opcode = op) ↔ w &&& specMask op = specMatch op) ∧
  (∀ (w : Word) (op op' : Opcode),
    w &&& specMask op = specMatch op → w &&& specMask op' = specMatch op' → op = op')

/-- R70, R71, R244: the record of an instruction is read back as that instruction exactly if the instruction is well-formed, and
the loader of records installs one slot per element of a sequence of well-formed records and absent slots. That it refuses a
sequence with any other record is the model's reading of U14 (log entry 8), and so is its range of lengths. -/
def Obligations.LoaderTakesWellFormedRecords : Prop :=
  (∀ (so : ShiftOperands) (r : Record) (i : Instr),
    recordInstr so r = some i ↔ i.wellFormed so = true ∧ i.toRecord = r) ∧
  (∀ (s : State) (slots : List (Option Instr)), fresh s = true → slots.length ≤ maxProgLen →
    (∀ i, some i ∈ slots → i.wellFormed s.params.shiftOperands = true) →
    loadRecords (slots.map (Option.map Instr.toRecord)) s = .next { s with imem := slots }) ∧
  (∀ (s : State) (rs : List (Option Record)) (r : Record), some r ∈ rs →
    (∀ i : Instr, i.wellFormed s.params.shiftOperands = true → i.toRecord ≠ r) →
    loadRecords rs s = .refused .illFormedRecord)

/-! ## Registers, data memory, units -/

/-- R21, and the two operations of R22: register 0 reads 0 and ignores writes, without an error; every other register reads
what was last written to it; an index outside [0,32) fails with InvalidRegisterIndex. -/
def Obligations.RegisterFileReadsAndWrites : Prop :=
  (∀ (f : RegFile) (r q : Reg) (v : Word),
    regRead (regWrite f r v) q = (if q = 0 then 0 else if q = r then v else regRead f q)) ∧
  (∀ (f : RegFile) (v : Word), regWrite f 0 v = f) ∧
  (∀ (f : RegFile) (idx : Nat) (v : Word), idx < 32 →
    regReadAt f idx = .ok (if idx = 0 then 0 else f.toList.getD idx 0) ∧
    regWriteAt f idx v = .ok (regWrite f (BitVec.ofNat 5 idx) v)) ∧
  (∀ (f : RegFile) (idx : Nat) (v : Word), 32 ≤ idx →
    regReadAt f idx = .error .invalidRegisterIndex ∧ regWriteAt f idx v = .error .invalidRegisterIndex)

/-- R52, R59: a store to a refused address fails; any other changes its one word and nothing else, and a read of any address
in that word then returns the value stored. -/
def Obligations.MemoryReturnsWhatWasStored : Prop :=
  ∀ (p : Params) (m : Memory) (a v : Word),
    (addrRefused p a = true → memWrite p m a v = .error .memoryOutOfBounds) ∧
    (m.wf = true → addrRefused p a = false →
      ∃ m', memWrite p m a v = .ok m' ∧ memGet m' (a.toNat / 4) = v ∧
        (∀ k, k ≠ a.toNat / 4 → memGet m' k = memGet m k) ∧
        ∀ b : Word, addrRefused p b = false →
          memRead p m' b = (if b.toNat / 4 = a.toNat / 4 then .ok v else memRead p m b))

/-- R50, R51, R53, R54: which addresses are refused, which word the others select, and that the four addresses of a word select
the same one. -/
def Obligations.AddressesAreBoundedAndTruncated : Prop :=
  (∀ (p : Params) (m : Memory) (a v : Word), a.msb = true ∨ p.memWords ≤ a.toNat / 4 →
    memRead p m a = .error .memoryOutOfBounds ∧ memWrite p m a v = .error .memoryOutOfBounds) ∧
  (∀ (p : Params) (m : Memory) (a v : Word), a.msb = false → a.toNat / 4 < p.memWords →
    memRead p m a = .ok (memGet m (a.toNat / 4)) ∧ memWrite p m a v = .ok (memSet m (a.toNat / 4) v)) ∧
  (∀ k j : Nat, j < 4 → 4 * k + j < 2 ^ 31 → wordIndex (BitVec.ofNat 32 (4 * k + j)) = k)

/-- The model's own form of memory (log entry 3): canonical memories that read the same everywhere are equal data. -/
def Obligations.CanonicalMemoriesReadingAlikeAreEqual : Prop :=
  ∀ m n : Memory, m.wf = true → n.wf = true → (∀ k, memGet m k = memGet n k) → m = n

/-- R103, R104: AND, OR and XOR bit by bit, and the signed comparison of SLT. -/
def Obligations.LogicalAndComparisonResults : Prop :=
  ∀ a b : Word,
    (∀ k < 32,
      (aluResult .and a b).getLsbD k = (a.getLsbD k && b.getLsbD k) ∧
      (aluResult .or a b).getLsbD k = (a.getLsbD k || b.getLsbD k) ∧
      (aluResult .xor a b).getLsbD k = (a.getLsbD k ^^ b.getLsbD k)) ∧
    (s32 a < s32 b → aluResult .slt a b = 0x00000001) ∧ (¬ s32 a < s32 b → aluResult .slt a b = 0x00000000)

/-- Sums, differences and shifts as arithmetic on naturals. That they wrap and that a shift counts by five bits are the
spec's own decisions D1 and D7 (R101, R102, R105, R106; log entry 17). -/
def Obligations.SumsDifferencesAndShifts : Prop :=
  ∀ a b : Word,
    (aluResult .add a b).toNat = (a.toNat + b.toNat) % 2 ^ 32 ∧
    (aluResult .sub a b).toNat = (a.toNat + (2 ^ 32 - b.toNat)) % 2 ^ 32 ∧
    (aluResult .sll a b).toNat = a.toNat * 2 ^ (b.toNat % 32) % 2 ^ 32 ∧
    (aluResult .srl a b).toNat = a.toNat / 2 ^ (b.toNat % 32)

/-- R111, R113: the control decoder's table, row by row, and the table of arithmetic selectors. -/
def Obligations.ControlDecoderTable : Prop :=
  (∀ op ∈ [Opcode.ADD, .SUB, .AND, .OR, .XOR, .SLT, .SLL, .SRL],
    decodeCtrl op = ⟨true, false, false, false, false, true, false, false, .m2⟩) ∧
  decodeCtrl .ADDI = ⟨true, false, false, false, true, false, false, false, .m0⟩ ∧
  decodeCtrl .ORI = ⟨true, false, false, false, true, false, false, false, .m1⟩ ∧
  decodeCtrl .LW = ⟨true, true, false, false, true, false, true, false, .m0⟩ ∧
  decodeCtrl .SW = ⟨false, false, true, false, true, false, false, false, .m0⟩ ∧
  decodeCtrl .BEQ = ⟨false, false, false, true, false, false, false, false, .m1⟩ ∧
  decodeCtrl .BGEZ = ⟨false, false, false, true, false, false, false, false, .m5⟩ ∧
  decodeCtrl .J = ⟨false, false, false, false, false, false, false, true, .none⟩ ∧
  (∀ op ∈ [Opcode.ADD, .ADDI, .LW, .SW], aluOpOf op = some .add) ∧
  (∀ op ∈ [Opcode.SUB, .BEQ], aluOpOf op = some .sub) ∧ aluOpOf .AND = some .and ∧
  (∀ op ∈ [Opcode.OR, .ORI], aluOpOf op = some .or) ∧ aluOpOf .XOR = some .xor ∧
  (∀ op ∈ [Opcode.SLT, .BGEZ], aluOpOf op = some .slt) ∧ aluOpOf .SLL = some .sll ∧ aluOpOf .SRL = some .srl

/-- R45: the reset values the spec gives (the instruction store has none; log entry 4). -/
def Obligations.ResetEstablishesTheTable : Prop :=
  (∀ r : Reg, regRead State.reset.regs r = 0) ∧ State.reset.pc = 0 ∧ State.reset.zf = false ∧
  State.reset.ifid = none ∧ State.reset.idex = none ∧ State.reset.exmem = none ∧ State.reset.memwb = none ∧
  (∀ k, memGet State.reset.dmem k = 0) ∧ State.reset.halted = false ∧ State.reset.cycle = 0 ∧
  State.reset.stalls = 0 ∧ State.reset.fault = none ∧ State.reset.hazardEn = true ∧ State.reset.fwdEn = true

/-! ## Forwarding, store data and the load-use check -/

/-- R146: the forwarded value of a source, case by case. -/
def Obligations.ForwardingPriority : Prop :=
  ∀ (s : State) (r : Reg) (v : Word),
    forward s 0 v = 0 ∧
    (r ≠ 0 → s.fwdEn = false → forward s r v = v) ∧
    (r ≠ 0 → s.fwdEn = true → ∀ m, s.exmem = some m →
      m.ctrl.regWrite = true → m.dest = r → m.ctrl.memRead = false → forward s r v = m.alu) ∧
    (r ≠ 0 → s.fwdEn = true →
      (∀ m, s.exmem = some m → m.ctrl.regWrite = false ∨ m.dest ≠ r ∨ m.ctrl.memRead = true) →
      (∀ w, s.snap = some w → w.ctrl.regWrite = true → w.dest = r →
        forward s r v = if w.ctrl.memToReg then w.mem else w.alu) ∧
      ((∀ w, s.snap = some w → w.ctrl.regWrite = false ∨ w.dest ≠ r) → forward s r v = v))

/-- R143: the value a store writes. -/
def Obligations.StoreDataComesFromTheSnapshotOrTheLatch : Prop :=
  ∀ (s : State) (i : Instr) (m : ExMem),
    (s.params.memStoreFwd = true → s.fwdEn = true → i.rt ≠ 0 → ∀ w, s.snap = some w → w.ctrl.regWrite = true →
      w.dest = i.rt → storeData s i m = if w.ctrl.memToReg then w.mem else w.alu) ∧
    (s.params.memStoreFwd = false ∨ s.fwdEn = false ∨ i.rt = 0 ∨
      (∀ w, s.snap = some w → w.ctrl.regWrite = false ∨ w.dest ≠ i.rt) → storeData s i m = m.sd)

/-- R152: when the load-use check finds a hazard, under the default field comparison; and under the other one for an
instruction that reads neither register the load writes (log entry 7 covers shifts under rs_rt). -/
def Obligations.LoadUseCheckIsExact : Prop :=
  (∀ (s : State) (i : Instr) (c : Ctrl), s.params.hazardFieldCompare = true →
    (hazard s i c = true ↔ s.hazardEn = true ∧ ∃ e, s.idex = some e ∧ e.ctrl.memRead = true ∧ e.dest ≠ 0 ∧
      (i.rs = e.dest ∨ (i.rt = e.dest ∧ c.memWrite = false)))) ∧
  (∀ (s : State) (i : Instr) (c : Ctrl), s.params.hazardFieldCompare = false → s.params.shiftOperands = .rtShamt →
    (hazard s i c = true ↔ s.hazardEn = true ∧ ∃ e, s.idex = some e ∧ e.ctrl.memRead = true ∧ e.dest ≠ 0 ∧
      ((i.opcode ∉ [Opcode.SLL, .SRL, .J] ∧ i.rs = e.dest) ∨
       (i.opcode ∈ [Opcode.ADD, .SUB, .AND, .OR, .XOR, .SLT, .SLL, .SRL, .BEQ] ∧ i.rt = e.dest))))

/-! ## The five stages of each instruction

The stage that runs is named by the model's own field `phase` (log entry 1). -/

/-- R155: Fetch delivers any of the 15 instructions. -/
def Obligations.FetchStageDeliversEveryInstruction : Prop :=
  ∀ (i : Instr) (s : State), s.phase = .fetch →
    exec i s = .next { s with ifid := some ⟨i, s.pc⟩, pc := s.pc + 1 }

/-- R150, R154: Decode without a hazard, for any of the 15 instructions. -/
def Obligations.DecodeStageReadsOperands : Prop :=
  ∀ (i : Instr) (s : State) (f : IfId), s.phase = .decode → s.ifid = some f →
    hazard s i (decodeCtrl i.opcode) = false →
    exec i s = .next { s with idex := some {
      instr := i, ipc := f.ipc, a := regRead s.regs i.rs, b := regRead s.regs i.rt, imm := i.imm,
      dest := if (decodeCtrl i.opcode).regDst then i.rd else i.rt, ctrl := decodeCtrl i.opcode } }

/-- R153: Decode with a hazard, for any of the 15 instructions. -/
def Obligations.DecodeStageStallsOnHazard : Prop :=
  ∀ (i : Instr) (s : State) (f : IfId), s.phase = .decode → s.ifid = some f →
    hazard s i (decodeCtrl i.opcode) = true →
    exec i s = .next { s with idex := none, pc := s.pc - 1, stalls := s.stalls + 1 }

/-- R180 to R186: ADD, SUB, AND, OR, XOR, SLT in Execute, on the forwarded operands. `pc` and `ifid` stay. -/
def Obligations.RegisterRegisterInExecute : Prop :=
  ∀ (s : State) (rd rs rt : Reg) (e : IdEx), s.phase = .execute → s.idex = some e → e.ctrl = ctrlRegReg →
    let fa := forward s rs e.a
    let fb := forward s rt e.b
    let out := fun (i : Instr) (v : Word) => Host.Outcome.next { s with
      zf := v == 0, exmem := some ⟨i, e.ipc, v, fb, e.dest, e.ctrl⟩ }
    exec (.add rd rs rt) s = out (.add rd rs rt) (fa + fb) ∧
    exec (.sub rd rs rt) s = out (.sub rd rs rt) (fa - fb) ∧
    exec (.and rd rs rt) s = out (.and rd rs rt) (fa &&& fb) ∧
    exec (.or rd rs rt) s = out (.or rd rs rt) (fa ||| fb) ∧
    exec (.xor rd rs rt) s = out (.xor rd rs rt) (fa ^^^ fb) ∧
    exec (.slt rd rs rt) s = out (.slt rd rs rt) (if s32 fa < s32 fb then 1 else 0)

/-- R187 to R189: SLL and SRL in Execute, under either operand selection (log entry 17 for counts of 32 or more). -/
def Obligations.ShiftsInExecute : Prop :=
  ∀ (s : State) (rd rs rt : Reg) (sh : BitVec 5) (e : IdEx),
    s.phase = .execute → s.idex = some e → e.ctrl = ctrlRegReg →
    let fa := forward s rs e.a
    let fb := forward s rt e.b
    let out := fun (i : Instr) (v : Word) => Host.Outcome.next { s with
      zf := v == 0, exmem := some ⟨i, e.ipc, v, fb, e.dest, e.ctrl⟩ }
    (s.params.shiftOperands = .rtShamt →
      exec (.sll rd rs rt sh) s = out (.sll rd rs rt sh) (fb <<< sh.toNat) ∧
      exec (.srl rd rs rt sh) s = out (.srl rd rs rt sh) (fb >>> sh.toNat)) ∧
    (s.params.shiftOperands = .rsRt →
      exec (.sll rd rs rt sh) s = out (.sll rd rs rt sh) (fa <<< (fb.toNat % 32)) ∧
      exec (.srl rd rs rt sh) s = out (.srl rd rs rt sh) (fa >>> (fb.toNat % 32)))

/-- R190 to R192, R200: ADDI and ORI, and the address of LW and SW, in Execute, on the forwarded base and the latched
sign-extended immediate. -/
def Obligations.ImmediatesAndAddressesInExecute : Prop :=
  ∀ (s : State) (rt rs : Reg) (imm : Word) (e : IdEx), s.phase = .execute → s.idex = some e →
    let fa := forward s rs e.a
    let out := fun (i : Instr) (v : Word) => Host.Outcome.next { s with
      zf := v == 0, exmem := some ⟨i, e.ipc, v, forward s rt e.b, e.dest, e.ctrl⟩ }
    (e.ctrl = ctrlAddi → exec (.addi rt rs imm) s = out (.addi rt rs imm) (fa + e.imm)) ∧
    (e.ctrl = ctrlOri → exec (.ori rt rs imm) s = out (.ori rt rs imm) (fa ||| e.imm)) ∧
    (e.ctrl = ctrlLw → exec (.lw rt rs imm) s = out (.lw rt rs imm) (fa + e.imm)) ∧
    (e.ctrl = ctrlSw → exec (.sw rt rs imm) s = out (.sw rt rs imm) (fa + e.imm))

/-- R149, R157, R211: BEQ in Execute, taken iff the forwarded operands are equal, to its own index plus 1 plus the offset. -/
def Obligations.BeqInExecute : Prop :=
  ∀ (s : State) (rs rt : Reg) (imm : Word) (e : IdEx), s.phase = .execute → s.idex = some e → e.ctrl = ctrlBeq →
    let fa := forward s rs e.a
    let fb := forward s rt e.b
    let s' := { s with zf := decide (fa = fb), exmem := some ⟨.beq rs rt imm, e.ipc, fa - fb, fb, e.dest, e.ctrl⟩ }
    exec (.beq rs rt imm) s =
      .next (if fa = fb then { s' with pc := e.ipc + 1 + e.imm, ifid := none } else s')

/-- R149, R157, R212: BGEZ in Execute, taken iff the forwarded operand is not negative. -/
def Obligations.BgezInExecute : Prop :=
  ∀ (s : State) (rs : Reg) (imm : Word) (e : IdEx), s.phase = .execute → s.idex = some e → e.ctrl = ctrlBgez →
    let fa := forward s rs e.a
    let s' := { s with
      zf := decide (0 ≤ s32 fa)
      exmem := some ⟨.bgez rs imm, e.ipc, if s32 fa < 0 then 1 else 0, 0, e.dest, e.ctrl⟩ }
    exec (.bgez rs imm) s =
      .next (if 0 ≤ s32 fa then { s' with pc := e.ipc + 1 + e.imm, ifid := none } else s')

/-- R115, R149, R157, R213: J in Execute goes to its address and leaves the zero flag. The second clause is the model's own
reading and no rule's: the spec leaves the lookup of J's operation undefined (R115), and for a latched bundle whose jump
flag is clear, which no run holds, the model raises UnknownOpcode (log entry 13), the state otherwise as it was
(log entry 5). -/
def Obligations.JumpInExecute : Prop :=
  ∀ (s : State) (addr : Word) (e : IdEx), s.phase = .execute → s.idex = some e →
    (e.ctrl.jump = true → exec (.j addr) s = .next { s with
      pc := addr, ifid := none, exmem := some ⟨.j addr, e.ipc, 0, 0, e.dest, e.ctrl⟩ }) ∧
    (e.ctrl.jump = false → exec (.j addr) s = .fault (.raised .unknownOpcode { s with fault := some .unknownOpcode }))

/-- R140 to R144: LW and SW in Memory inside the bounds, and every other instruction, which passes through. -/
def Obligations.MemoryStageLoadsStoresAndPasses : Prop :=
  ∀ (s : State) (m : ExMem), s.phase = .memory → s.exmem = some m →
    (∀ (rt rs : Reg) (imm : Word), m.ctrl = ctrlLw → addrRefused s.params m.alu = false →
      exec (.lw rt rs imm) s = .next { s with
        memwb := some ⟨.lw rt rs imm, m.ipc, m.alu, memGet s.dmem (m.alu.toNat / 4), m.dest, m.ctrl⟩ }) ∧
    (∀ (rt rs : Reg) (imm : Word), m.ctrl = ctrlSw → addrRefused s.params m.alu = false →
      exec (.sw rt rs imm) s = .next { s with
        dmem := memSet s.dmem (m.alu.toNat / 4) (storeData s (.sw rt rs imm) m)
        memwb := some ⟨.sw rt rs imm, m.ipc, m.alu, 0, m.dest, m.ctrl⟩ }) ∧
    (∀ i : Instr, i.opcode ∉ [Opcode.LW, .SW] → m.ctrl = decodeCtrl i.opcode →
      exec i s = .next { s with memwb := some ⟨i, m.ipc, m.alu, 0, m.dest, m.ctrl⟩ })

/-- R141, R142, R224: LW and SW in Memory outside the bounds raise MemoryOutOfBounds. That the rest of the state
is as it was is the model's reading (log entry 5): U8 gives it no value to rely on. -/
def Obligations.MemoryStageRaisesOutOfBounds : Prop :=
  ∀ (s : State) (m : ExMem) (i : Instr), s.phase = .memory → s.exmem = some m → i.opcode ∈ [Opcode.LW, .SW] →
    m.ctrl = decodeCtrl i.opcode → (m.alu.msb = true ∨ s.params.memWords ≤ m.alu.toNat / 4) →
    exec i s = .fault (.raised .memoryOutOfBounds { s with fault := some .memoryOutOfBounds })

/-- R135: Writeback writes where `regWrite` is set, and otherwise does nothing; so it writes the arithmetic result for ten
opcodes, the loaded word for LW, and never for SW, BEQ, BGEZ and J. -/
def Obligations.WritebackCommitsTheResult : Prop :=
  ∀ (s : State) (i : Instr), s.phase = .writeback →
    (s.memwb = none → exec i s = .next s) ∧
    ∀ w, s.memwb = some w →
      (w.ctrl.regWrite = true →
        exec i s = .next { s with regs := regWrite s.regs w.dest (if w.ctrl.memToReg then w.mem else w.alu) }) ∧
      (w.ctrl.regWrite = false ∨ w.dest = 0 → exec i s = .next s) ∧
      (w.ctrl = decodeCtrl i.opcode →
        (i.opcode ∈ [Opcode.ADD, .SUB, .AND, .OR, .XOR, .SLT, .SLL, .SRL, .ADDI, .ORI] →
          exec i s = .next { s with regs := regWrite s.regs w.dest w.alu }) ∧
        (i.opcode = .LW → exec i s = .next { s with regs := regWrite s.regs w.dest w.mem }) ∧
        (i.opcode ∈ [Opcode.SW, .BEQ, .BGEZ, .J] → exec i s = .next s))

/-! ## Frames -/

/-- Register frame of all 15 instructions: only Writeback writes a register, and only the latch's destination (R23, R135). -/
def Obligations.FrameOfRegisters : Prop :=
  ∀ (i : Instr) (s t : State) (r : Reg), exec i s = .next t →
    (∀ w, s.phase = .writeback → s.memwb = some w → w.ctrl.regWrite = true → w.dest ≠ r) →
    regRead t.regs r = regRead s.regs r

/-- Memory frame of all 15 instructions: only a store in Memory writes, and only the word its address selects (R52, R58). -/
def Obligations.FrameOfDataMemory : Prop :=
  ∀ (i : Instr) (s t : State) (k : Nat), exec i s = .next t →
    (∀ m, s.phase = .memory → s.exmem = some m → m.ctrl.memWrite = true → wordIndex m.alu ≠ k) →
    memGet t.dmem k = memGet s.dmem k

/-- Frame of the control state of all 15 instructions: the zero flag changes in Execute alone and not for a jump (R26, R115);
`pc` in Fetch, in a stall and by a taken transfer alone (R25); `stalls` in a stall alone (R162); the rest never (R28, R29). -/
def Obligations.FrameOfControlState : Prop :=
  ∀ (i : Instr) (s t : State), exec i s = .next t →
    ((∀ e, s.phase = .execute → s.idex = some e → e.ctrl.jump = true) → t.zf = s.zf) ∧
    (s.phase = .memory ∨ s.phase = .writeback → t.pc = s.pc) ∧
    (s.phase = .decode → hazard s i (decodeCtrl i.opcode) = false → t.pc = s.pc) ∧
    (∀ e, s.phase = .execute → s.idex = some e → e.ctrl.jump = false → e.ctrl.branch = false → t.pc = s.pc) ∧
    ((s.phase = .decode → hazard s i (decodeCtrl i.opcode) = false) → t.stalls = s.stalls) ∧
    t.halted = s.halted ∧ t.cycle = s.cycle ∧ t.fault = s.fault ∧ t.hazardEn = s.hazardEn ∧ t.fwdEn = s.fwdEn ∧
    t.imem = s.imem ∧ t.params = s.params ∧ t.snap = s.snap ∧ t.phase = s.phase

/-- R36: a latch changes only where its producing stage overwrites it, or where Execute flushes the Fetch→Decode latch. -/
def Obligations.FrameOfLatches : Prop :=
  ∀ (i : Instr) (s t : State), exec i s = .next t →
    (s.phase ≠ .fetch → t.ifid = s.ifid ∨ (s.phase = .execute ∧ t.ifid = none)) ∧
    (s.phase ≠ .decode → t.idex = s.idex) ∧
    (s.phase ≠ .execute → t.exmem = s.exmem) ∧
    (s.phase ≠ .memory → t.memwb = s.memwb)

/-! ## One instruction alone in the machine: its architectural effect through five cycles -/

/-- R181 to R186: ADD, SUB, AND, OR, XOR, SLT. The five steps to the halt, and `cycle`, follow the reading of R160 that log
entry 16 names (D15, U15). -/
def Obligations.RegisterRegisterAlone : Prop :=
  ∀ (s : State) (rd rs rt : Reg),
    let x := regRead s.regs
    let does := fun (i : Instr) (v : Word) => AloneAt i (s.pc + 1) s →
      ∃ t, SafeRun 5 s t ∧ t.regs = regWrite s.regs rd v ∧ t.zf = (v == 0) ∧ t.pc = s.pc + 1 ∧ t.dmem = s.dmem ∧
        t.halted = true ∧ t.cycle = s.cycle + 5 ∧ t.stalls = s.stalls
    does (.add rd rs rt) (x rs + x rt) ∧ does (.sub rd rs rt) (x rs - x rt) ∧
    does (.and rd rs rt) (x rs &&& x rt) ∧ does (.or rd rs rt) (x rs ||| x rt) ∧
    does (.xor rd rs rt) (x rs ^^^ x rt) ∧ does (.slt rd rs rt) (if s32 (x rs) < s32 (x rt) then 1 else 0)

/-- R187 to R189, R191, R192: SLL and SRL under either operand selection, ADDI and ORI. The five steps to the halt,
and `cycle`, follow log entry 16 (R160, D15, U15), and the count under rs_rt log entry 17 (D7, U13). -/
def Obligations.ShiftsAndImmediatesAlone : Prop :=
  ∀ (s : State) (rd rs rt : Reg) (sh : BitVec 5) (imm : Word),
    let x := regRead s.regs
    let does := fun (i : Instr) (r : Reg) (v : Word) => AloneAt i (s.pc + 1) s →
      ∃ t, SafeRun 5 s t ∧ t.regs = regWrite s.regs r v ∧ t.zf = (v == 0) ∧ t.pc = s.pc + 1 ∧ t.dmem = s.dmem ∧
        t.halted = true ∧ t.cycle = s.cycle + 5 ∧ t.stalls = s.stalls
    (s.params.shiftOperands = .rtShamt →
      does (.sll rd rs rt sh) rd (x rt <<< sh.toNat) ∧ does (.srl rd rs rt sh) rd (x rt >>> sh.toNat)) ∧
    (s.params.shiftOperands = .rsRt →
      does (.sll rd rs rt sh) rd (x rs <<< ((x rt).toNat % 32)) ∧
      does (.srl rd rs rt sh) rd (x rs >>> ((x rt).toNat % 32))) ∧
    does (.addi rt rs imm) rt (x rs + imm) ∧ does (.ori rt rs imm) rt (x rs ||| imm)

/-- R200 to R202: LW and SW at an address inside the bounds. The five steps to the halt follow log entry 16 (R160, D15, U15). -/
def Obligations.LoadAndStoreAlone : Prop :=
  ∀ (s : State) (rt rs : Reg) (imm : Word),
    let ea := regRead s.regs rs + imm
    ea.msb = false → ea.toNat / 4 < s.params.memWords →
    (AloneAt (.lw rt rs imm) (s.pc + 1) s → ∃ t, SafeRun 5 s t ∧
      t.regs = regWrite s.regs rt (memGet s.dmem (ea.toNat / 4)) ∧ t.dmem = s.dmem ∧ t.zf = (ea == 0) ∧
      t.pc = s.pc + 1 ∧ t.halted = true) ∧
    (AloneAt (.sw rt rs imm) (s.pc + 1) s → ∃ t, SafeRun 5 s t ∧
      t.regs = s.regs ∧ t.dmem = memSet s.dmem (ea.toNat / 4) (regRead s.regs rt) ∧ t.zf = (ea == 0) ∧
      t.pc = s.pc + 1 ∧ t.halted = true)

/-- R210 to R213: BEQ, BGEZ and J, where neither the slot behind nor the one gone to holds an instruction; where one does, see
BeqInExecute, BgezInExecute, JumpInExecute and StepSimulatesSequentialExecution. The five steps to the halt follow log
entry 16 (R160, D15, U15). -/
def Obligations.TransfersAlone : Prop :=
  ∀ (s : State) (rs rt : Reg) (imm addr : Word),
    let x := regRead s.regs
    let goes := fun (i : Instr) (pc : Word) (zf : Bool) => AloneAt i pc s →
      ∃ t, SafeRun 5 s t ∧ t.pc = pc ∧ t.zf = zf ∧ t.regs = s.regs ∧ t.dmem = s.dmem ∧ t.halted = true
    goes (.beq rs rt imm) (if x rs = x rt then s.pc + 1 + imm else s.pc + 1) (decide (x rs = x rt)) ∧
    goes (.bgez rs imm) (if 0 ≤ s32 (x rs) then s.pc + 1 + imm else s.pc + 1) (decide (0 ≤ s32 (x rs))) ∧
    goes (.j addr) addr s.zf

/-! ## The cycle -/

/-- R130: a step of a halted or faulted core does nothing; any other is the five stage procedures in their order, whatever the
toggles, each run through `exec` for the instruction its latch holds, or for the one in the slot at `pc`. That Fetch raises on bit 31
of `pc` is R155, the spec's own decision D11; the field `phase` is the model's own (log entry 1). -/
def Obligations.StepRunsTheStagesThroughExec : Prop :=
  (∀ s : State, s.halted = true ∨ s.fault ≠ none → step s = .next s) ∧
  ∀ s : State, s.halted = false → s.fault = none →
    step s =
      andThen (match s.memwb with
        | none => .next { s with cycle := s.cycle + 1, snap := none, phase := .writeback }
        | some w => exec w.instr { s with cycle := s.cycle + 1, snap := some w, phase := .writeback }) fun s₁ =>
      andThen (match s₁.exmem with
        | none => .next { s₁ with phase := .memory, memwb := none }
        | some m => exec m.instr { s₁ with phase := .memory }) fun s₂ =>
      andThen (match s₂.idex with
        | none => .next { s₂ with phase := .execute, exmem := none }
        | some e => exec e.instr { s₂ with phase := .execute }) fun s₃ =>
      andThen (match s₃.ifid with
        | none => .next { s₃ with phase := .decode, idex := none }
        | some f => exec f.instr { s₃ with phase := .decode }) fun s₄ =>
      andThen (if s₄.pc.msb then raise .invalidFetchAddress { s₄ with phase := .fetch }
        else match slotAt s₄.imem s₄.pc with
          | none => .next { s₄ with phase := .fetch, ifid := none }
          | some i => exec i { s₄ with phase := .fetch }) fun s₅ =>
      .next (if s₅.ifid.isNone && s₅.idex.isNone && s₅.exmem.isNone && s₅.memwb.isNone
        then { s₅ with halted := true } else s₅)

/-- The first step of a drained core runs the instruction in the slot at `pc` (R155), and so does the first step after a table
row's word is put there. -/
def Obligations.FirstStepRunsTheDecodedInstruction : Prop :=
  (∀ (s : State) (i : Instr), stopped s = false → drained s = true → s.pc.msb = false →
    slotAt s.imem s.pc = some i →
    step s = exec i { s with cycle := s.cycle + 1, snap := none, phase := .fetch }) ∧
  (∀ (s : State) (w : Word) (i : Instr), decodeWith s.params.shiftOperands w = .ok i →
    step (s.withFetchWord 32 w.toNat) =
      exec i { s.withFetchWord 32 w.toNat with cycle := s.cycle + 1, snap := none, phase := .fetch })

/-- No step of any state is refused: the 15 instructions all have their meaning. -/
def Obligations.NoStepIsRefused : Prop := ∀ (s : State) (r : Refusal), step s ≠ .refused r

/-- R162: `cycle` counts the executed steps, and `stalls` the load-use hazards. -/
def Obligations.CountersCountStepsAndHazards : Prop :=
  ∀ s t : State, PipeInv s → stopped s = false → step s = .next t →
    t.cycle = s.cycle + 1 ∧
    t.stalls = s.stalls + (match s.ifid with
      | none => 0
      | some f => if hazard s f.instr (decodeCtrl f.instr.opcode) then 1 else 0)

/-- R160: at the end of an executed step the core is halted exactly if the four latches are empty (log entry 16: D15, U15). -/
def Obligations.HaltedExactlyWhenDrained : Prop :=
  ∀ s t : State, stopped s = false → step s = .next t →
    (t.halted = true ↔ t.ifid = none ∧ t.idex = none ∧ t.exmem = none ∧ t.memwb = none)

/-- R64, R246, R254: no step changes the instruction store, the parameters or the toggles. -/
def Obligations.StepKeepsProgramAndConfiguration : Prop :=
  ∀ s t : State, step s = .next t →
    t.imem = s.imem ∧ t.params = s.params ∧ t.hazardEn = s.hazardEn ∧ t.fwdEn = s.fwdEn ∧ t.fault = s.fault

/-- R164, R165 (a): each stage works on what the stage before it worked on one cycle earlier; nothing overtakes. -/
def Obligations.InstructionsFlowInOrder : Prop :=
  ∀ s t : State, stopped s = false → step s = .next t →
    (labels t).writeback = (labels s).memory ∧ (labels t).memory = (labels s).execute ∧
    (labels t).execute = (labels s).decode ∧
    ((labels t).decode = (labels s).fetch ∨ (labels t).decode = none)

/-- R153, R165 (b), (e): the net effect of a stall cycle. -/
def Obligations.StallCycleHoldsFetchAndInsertsBubble : Prop :=
  ∀ (s t : State) (f : IfId), PipeInv s → stopped s = false → s.ifid = some f →
    hazard s f.instr (decodeCtrl f.instr.opcode) = true → step s = .next t →
    t.idex = none ∧ t.ifid = s.ifid ∧ t.pc = s.pc ∧ t.stalls = s.stalls + 1

/-- R165 (d): no two stall cycles in a row, so one instruction stalls at most once. -/
def Obligations.NoTwoStallsInARow : Prop :=
  ∀ s t u : State, step s = .next t → step t = .next u → t.stalls ≠ s.stalls → u.stalls = t.stalls

/-- R263: with hazard detection off there are no stalls. -/
def Obligations.NoStallsWithoutHazardDetection : Prop :=
  ∀ s t : State, s.hazardEn = false → step s = .next t → t.stalls = s.stalls

/-- R157, R214: a jump in Execute flushes the one fetched behind it and fetches at its target in the same cycle, with no delay
slot. -/
def Obligations.JumpFlushesOneSlot : Prop :=
  ∀ (s t : State) (e : IdEx) (addr : Word), PipeInv s → stopped s = false → s.idex = some e → e.instr = .j addr →
    step s = .next t →
    t.idex = none ∧ t.stalls = s.stalls ∧ t.ifid = (slotAt s.imem addr).map (⟨·, addr⟩) ∧
    t.pc = if (slotAt s.imem addr).isSome then addr + 1 else addr

/-- R141, R224, R227: an access out of bounds in Memory is the error of the cycle, whatever Execute and Fetch would have met;
Writeback of the older instruction is done, and nothing else is: the state after the error is log entry 5's. -/
def Obligations.OldestErrorIsReported : Prop :=
  ∀ (s : State) (m : ExMem), stopped s = false → s.exmem = some m →
    (m.ctrl.memRead = true ∨ m.ctrl.memWrite = true) → addrRefused s.params m.alu = true →
    step s = .fault (.raised .memoryOutOfBounds { s with
      cycle := s.cycle + 1, snap := s.memwb, phase := .memory, regs := completeMemWb s.memwb s.regs
      fault := some .memoryOutOfBounds })

/-- R210, R225: a taken BEQ or BGEZ whose target has bit 31 set makes Fetch raise InvalidFetchAddress in the same cycle, unless
the older instruction in Memory raises first (R227). Its operands are those Execute forwards, from the snapshot of this cycle.
The `pc` of the state after the error is the model's reading (log entry 5). -/
def Obligations.TargetBelowIndexZeroRaises : Prop :=
  ∀ (s : State) (e : IdEx), PipeInv s → stopped s = false → s.idex = some e →
    (∀ m, s.exmem = some m → m.ctrl.memRead = true ∨ m.ctrl.memWrite = true → addrRefused s.params m.alu = false) →
    let fwd := forward { s with snap := s.memwb }
    ((∃ rs rt imm, e.instr = .beq rs rt imm ∧ fwd rs e.a = fwd rt e.b) ∨
      (∃ rs imm, e.instr = .bgez rs imm ∧ 0 ≤ s32 (fwd rs e.a))) →
    (e.ipc + 1 + e.instr.imm).msb = true →
    ∃ t, step s = .fault (.raised .invalidFetchAddress t) ∧ t.pc = e.ipc + 1 + e.instr.imm ∧
      t.fault = some .invalidFetchAddress ∧ t.halted = false

/-- R221 to R226: from a state of a run, only two of the error kinds can be raised, each by its cause. The `pc`
of the state after the error is log entry 5's. -/
def Obligations.OnlyTwoErrorsAreReachable : Prop :=
  ∀ (s t : State) (k : ErrorKind), PipeInv s → step s = .fault (.raised k t) →
    t.fault = some k ∧ t.halted = false ∧
    ((k = .memoryOutOfBounds ∧ ∃ m, s.exmem = some m ∧ m.instr.opcode ∈ [Opcode.LW, .SW] ∧
        addrRefused s.params m.alu = true) ∨
     (k = .invalidFetchAddress ∧ t.pc.msb = true))

/-! ## Invariants -/

/-- The pipeline invariant (R31, R36, R165) is kept by every step, from every state that meets it. -/
def Obligations.StepKeepsPipelineInvariant : Prop := ∀ s t : State, PipeInv s → step s = .next t → PipeInv t

/-- The form of the stored data (R21, log entry 3) is kept by every step. -/
def Obligations.StepKeepsDataForm : Prop := ∀ s t : State, DataInv s → step s = .next t → DataInv t

/-- Both invariants hold after reset and the load of any program of at most 2^31 - 1 words (R250, R252). -/
def Obligations.LoadedResetMeetsInvariants : Prop :=
  PipeInv State.reset ∧ DataInv State.reset ∧
  ∀ (p : Params) (ws : List Word), ws.length < maxProgLen →
    ∃ t, loadWords ws (State.resetWith p) = .next t ∧ t.imem = ws.map (slotOfWord p.shiftOperands) ∧
      PipeInv t ∧ DataInv t ∧ RunStart t

/-! ## Headline results -/

/-- R166: from every state that meets the invariant, the cycle of R130 computes the next-state form, and raises where it
says. -/
def Obligations.CycleIsTheNextStateForm : Prop :=
  ∀ s : State, PipeInv s → stopped s = false →
    (∀ t, nextState s = .ok t → step s = .next t) ∧
    (∀ k, nextState s = .error k → ∃ t, step s = .fault (.raised k t))

/-- R167, one step: with both toggles on and Memory-stage forwarding, a step that has an instruction in Execute advances the
architectural state by exactly that instruction, and any other step leaves it. -/
def Obligations.StepSimulatesSequentialExecution : Prop :=
  ∀ (s t : State) (a : ArchState), PipeInv s → defaultSetting s → stopped s = false →
    archOf s = .ok a → step s = .next t →
    (s.idex = none → archOf t = .ok a) ∧
    (∀ e, s.idex = some e → e.ipc = a.pc ∧
      match archEffect s.params e.instr a with
      | .next b => archOf t = .ok b
      | .fault k => archOf t = .error k
      | .ended _ => False)

/-- R167, runs: a pipeline run that halts has the registers, memory and final index of sequential execution, and one that
faults has its error. -/
def Obligations.PipelineRunsEndAsSequentialOnes : Prop :=
  ∀ (s : State) (n : Nat), RunStart s → defaultSetting s →
    (∀ t, SafeRun n s t → t.halted = true →
      ∃ m, seqRun s.params s.imem m (archStart s) = .ended ⟨t.regs, t.dmem, t.pc⟩) ∧
    (∀ k t, Host.Core.run Sys2Proof.core n s = .fault (.raised k t) →
      ∃ m, seqRun s.params s.imem m (archStart s) = .fault k)

/-- R167, the other direction: where sequential execution ends or faults, the pipeline halts with the same registers, memory and
index, or faults with the same error. -/
def Obligations.SequentialEndsAreReachedByThePipeline : Prop :=
  ∀ (s : State) (m : Nat), RunStart s → defaultSetting s →
    (∀ a, seqRun s.params s.imem m (archStart s) = .ended a →
      ∃ n t, SafeRun n s t ∧ t.halted = true ∧ t.regs = a.regs ∧ t.dmem = a.mem ∧ t.pc = a.pc) ∧
    (∀ k, seqRun s.params s.imem m (archStart s) = .fault k →
      ∃ n t, Host.Core.run Sys2Proof.core n s = .fault (.raised k t))

/-- R160, R270: a straight-line program of `n` arithmetic and logic instructions halts at the end of cycle `n + 4` and not
before, with no stall, whatever the toggles and parameters (log entry 16: D15, U15). -/
def Obligations.StraightLineProgramHaltsAfterFourMoreCycles : Prop :=
  ∀ (s : State) (prog : List Instr), RunStart s → s.pc = 0 → s.imem = prog.map some →
    (∀ i ∈ prog, i.opcode ∈ [Opcode.ADD, .SUB, .AND, .OR, .XOR, .SLT, .SLL, .SRL, .ADDI, .ORI]) → prog ≠ [] →
    (∃ t, SafeRun (prog.length + 4) s t ∧ t.halted = true ∧ t.cycle = s.cycle + (prog.length + 4) ∧
      t.stalls = s.stalls) ∧
    (∀ n t, n < prog.length + 4 → SafeRun n s t → t.halted = false)

/-! ## The host's interfaces -/

/-- R46, R244, R252, R255, U11, U12: the loader and the presets act between reset and the first step and change what they name
alone; afterwards they are refused (the refusals, and that of a program beyond R9's length, are log entry 8's). -/
def Obligations.HostWritesOnlyBeforeTheFirstStep : Prop :=
  (∀ s : State, fresh s = true →
    (∀ (r : Reg) (v : Word), presetReg r.toNat v s = .next { s with regs := regWrite s.regs r v }) ∧
    (∀ (k : Nat) (v : Word), k < s.params.memWords → presetMem k v s = .next { s with dmem := memSet s.dmem k v }) ∧
    (∀ h f : Bool, setToggles h f s = .next { s with hazardEn := h, fwdEn := f }) ∧
    (∀ ws : List Word, ws.length ≤ maxProgLen →
      loadWords ws s = .next { s with imem := ws.map (slotOfWord s.params.shiftOperands) }) ∧
    (∀ ws : List Word, maxProgLen < ws.length → loadWords ws s = .refused .programTooLong) ∧
    (∀ (rs : List (Option Record)) (im : Store), slotsOfRecords s.params.shiftOperands rs = some im →
      loadRecords rs s = if im.length ≤ maxProgLen then .next { s with imem := im } else .refused .programTooLong)) ∧
  (∀ s : State, s.cycle ≠ 0 →
    (∀ (k : Nat) (v : Word), presetReg k v s = .refused .presetDuringRun ∧ presetMem k v s = .refused .presetDuringRun) ∧
    (∀ h f : Bool, setToggles h f s = .refused .presetDuringRun) ∧
    (∀ ws : List Word, loadWords ws s = .refused .loadWithoutReset) ∧
    (∀ rs : List (Option Record), loadRecords rs s = .refused .loadWithoutReset ∨
      loadRecords rs s = .refused .illFormedRecord))

/-- R239, R220, R247: a core that is not stepped, or is halted or faulted, holds its state under every clock edge without
reset once it has stepped; and a fatal error leaves it faulted (the ports are log entry 9's, the state after the error log
entry 5's). -/
def Obligations.ClockEdgeHoldsAStoppedCore : Prop :=
  (∀ (p : PortsIn) (s : State), p.rst = false → s.cycle ≠ 0 → p.stepEn = false ∨ stopped s = true → clockEdge p s = s) ∧
  (∀ (p : PortsIn) (s t : State) (k : ErrorKind), p.rst = false → p.stepEn = true → fresh s = false →
    step s = .fault (.raised k t) → clockEdge p s = t ∧ t.fault = some k ∧ clockEdge p t = t)
end

