-- ==== Sys2Proof/Laws/Ops.lean ====
section
/-! SUPPORT. The small lemmas of the operations over registers, data memory and results. -/

namespace Sys2Proof.Machine

/-! Registers. -/

theorem regRead_zero (f : RegFile) : regRead f 0 = 0 := by simp [regRead]

theorem regWrite_zero (f : RegFile) (v : Word) : regWrite f 0 v = f := by simp [regWrite]

/-- `regRead_zero` in the spelling that simp leaves. -/
@[simp] theorem regRead_zero_lit (f : RegFile) : regRead f 0#5 = 0#32 := regRead_zero f

/-- `regWrite_zero` in the spelling that simp leaves. -/
@[simp] theorem regWrite_zero_lit (f : RegFile) (v : Word) : regWrite f 0#5 v = f := regWrite_zero f v

theorem regRead_of_ne (f : RegFile) {r : Reg} (h : r ≠ 0) : regRead f r = f[r.toNat]'r.isLt := if_neg h

theorem regWrite_of_ne (f : RegFile) {r : Reg} (v : Word) (h : r ≠ 0) : regWrite f r v = f.set r.toNat v r.isLt := if_neg h

/-- A written register other than register 0 reads as written. -/
theorem regRead_regWrite_self (f : RegFile) {r : Reg} (v : Word) (h : r ≠ 0) : regRead (regWrite f r v) r = v := by
  rw [regWrite_of_ne f v h, regRead_of_ne _ h, Vector.getElem_set_self]

/-- A register other than the one written reads as before. -/
theorem regRead_regWrite_ne (f : RegFile) {r q : Reg} (v : Word) (h : q ≠ r) :
    regRead (regWrite f r v) q = regRead f q := by
  by_cases hr : r = 0
  · rw [hr, regWrite_zero]
  · by_cases hq : q = 0
    · rw [hq, regRead_zero, regRead_zero]
    · rw [regWrite_of_ne f v hr, regRead_of_ne _ hq, regRead_of_ne _ hq,
        Vector.getElem_set_ne r.isLt q.isLt fun e => h (BitVec.eq_of_toNat_eq e.symm)]

theorem regRead_regWrite (f : RegFile) (r q : Reg) (v : Word) :
    regRead (regWrite f r v) q = if q = r ∧ r ≠ 0 then v else regRead f q := by
  split
  · rename_i h
    rw [h.1, regRead_regWrite_self f v h.2]
  · rename_i h
    by_cases hq : q = r
    · have hr : r = 0 := by_contra fun hr => h ⟨hq, hr⟩
      rw [hr, regWrite_zero]
    · exact regRead_regWrite_ne f v hq

/-- A register write leaves slot 0 as it was. -/
theorem regWrite_slot_zero (f : RegFile) (r : Reg) (v : Word) : (regWrite f r v)[0] = f[0] := by
  by_cases hr : r = 0
  · rw [hr, regWrite_zero]
  · have h0 : r.toNat ≠ 0 := fun e => hr (BitVec.eq_of_toNat_eq e)
    rw [regWrite_of_ne f v hr]
    exact Vector.getElem_set_ne r.isLt (by omega) h0

/-! Data memory. -/

theorem memGet_memCons (m : Memory) (k j : Nat) (v : Word) (h : memGet m k = memDefault) :
    memGet (memCons k v m) j = if j = k then v else memGet m j := by
  unfold memCons
  by_cases hv : v = memDefault
  · by_cases hj : j = k
    · subst hj; simp [hv, h]
    · simp [hv, hj]
  · by_cases hj : j = k
    · simp [hv, hj, memGet]
    · simp [hv, memGet, hj, Ne.symm hj]

/-- Below the bound of a sorted memory nothing is listed. -/
theorem memGet_of_sortedAbove {l : Nat} {m : Memory} (h : memSortedAbove (some l) m = true) {k : Nat} (hk : k ≤ l) :
    memGet m k = memDefault := by
  induction m generalizing l with
  | nil => rfl
  | cons c m ih =>
    obtain ⟨j, v⟩ := c
    simp only [memSortedAbove, Bool.and_eq_true, decide_eq_true_eq] at h
    have : j ≠ k := by omega
    simp only [memGet, this, if_false]
    exact ih h.2 (by omega)

/-- What a sorted memory reads as after a write. -/
theorem memGet_memSet_of_sorted {lo : Option Nat} {m : Memory} (h : memSortedAbove lo m = true) (k j : Nat) (v : Word) :
    memGet (memSet m k v) j = if j = k then v else memGet m j := by
  induction m generalizing lo with
  | nil => exact memGet_memCons [] k j v rfl
  | cons c m ih =>
    obtain ⟨i, w⟩ := c
    simp only [memSortedAbove, Bool.and_eq_true] at h
    unfold memSet
    by_cases hki : k < i
    · rw [if_pos hki, memGet_memCons]
      simp only [memGet, show i ≠ k by omega, if_false]
      exact memGet_of_sortedAbove h.2 (by omega)
    · by_cases hke : k = i
      · subst hke
        rw [if_neg hki, if_pos rfl, memGet_memCons _ _ _ _ (memGet_of_sortedAbove h.2 (Nat.le_refl k))]
        by_cases hj : j = k
        · simp [hj]
        · simp [hj, memGet, Ne.symm hj]
      · rw [if_neg hki, if_neg hke]
        simp only [memGet, ih h.2]
        by_cases hj : i = j
        · have : j ≠ k := by omega
          simp [hj, this]
        · simp [hj]

theorem memGet_memSet {m : Memory} (h : m.wf = true) (k j : Nat) (v : Word) :
    memGet (memSet m k v) j = if j = k then v else memGet m j := memGet_memSet_of_sorted h k j v

/-- A write leaves every other word alone, whatever the form of the memory. -/
theorem memGet_memSet_ne (m : Memory) {k j : Nat} (v : Word) (h : j ≠ k) : memGet (memSet m k v) j = memGet m j := by
  have cons : ∀ m : Memory, memGet (memCons k v m) j = memGet m j := fun m => by
    unfold memCons; split
    · rfl
    · simp [memGet, Ne.symm h]
  induction m with
  | nil => exact cons []
  | cons c m ih =>
    obtain ⟨i, w⟩ := c
    unfold memSet
    split
    · exact cons _
    · split
      · rename_i hk
        rw [cons]; simp [memGet, show i ≠ j by omega]
      · simp [memGet, ih]

theorem memSortedAbove_weaken {lo : Option Nat} {l : Nat} {m : Memory} (h : memSortedAbove (some l) m = true)
    (hl : ∀ x, lo = some x → x ≤ l) : memSortedAbove lo m = true := by
  cases m with
  | nil => rfl
  | cons c m =>
    obtain ⟨j, v⟩ := c
    simp only [memSortedAbove, Bool.and_eq_true, decide_eq_true_eq] at h ⊢
    refine ⟨⟨?_, h.1.2⟩, h.2⟩
    cases lo with
    | none => rfl
    | some x => simp only [decide_eq_true_eq]; have := hl x rfl; omega

theorem memSortedAbove_memCons {lo : Option Nat} {k : Nat} {v : Word} {m : Memory}
    (h : memSortedAbove (some k) m = true) (hl : ∀ x, lo = some x → x < k) :
    memSortedAbove lo (memCons k v m) = true := by
  unfold memCons
  split
  · exact memSortedAbove_weaken h fun x hx => Nat.le_of_lt (hl x hx)
  · rename_i hv
    simp only [memSortedAbove, Bool.and_eq_true, bne_iff_ne, ne_eq]
    refine ⟨⟨?_, hv⟩, h⟩
    cases lo with
    | none => rfl
    | some x => simpa using hl x rfl

theorem memSortedAbove_memSet {lo : Option Nat} {m : Memory} (h : memSortedAbove lo m = true) {k : Nat} (v : Word)
    (hl : ∀ x, lo = some x → x < k) : memSortedAbove lo (memSet m k v) = true := by
  induction m generalizing lo with
  | nil => exact memSortedAbove_memCons (by rfl) hl
  | cons c m ih =>
    obtain ⟨i, w⟩ := c
    have h' := h
    simp only [memSortedAbove, Bool.and_eq_true] at h
    unfold memSet
    split
    · rename_i hki
      refine memSortedAbove_memCons ?_ hl
      simp only [memSortedAbove, Bool.and_eq_true, decide_eq_true_eq]
      exact ⟨⟨hki, h.1.2⟩, h.2⟩
    · split
      · rename_i hke; subst hke
        exact memSortedAbove_memCons h.2 hl
      · simp only [memSortedAbove, Bool.and_eq_true]
        exact ⟨⟨h.1.1, h.1.2⟩, ih h.2 fun x hx => by cases hx; omega⟩

/-- Every write keeps the canonical form. -/
theorem memSet_wf {m : Memory} (h : m.wf = true) (k : Nat) (v : Word) : (memSet m k v).wf = true :=
  memSortedAbove_memSet h v (by simp)

/-- A store that succeeds keeps the canonical form. -/
theorem memWrite_wf {p : Params} {m m' : Memory} {addr v : Word} (h : m.wf = true) (hw : memWrite p m addr v = .ok m') :
    m'.wf = true := by
  unfold memWrite at hw
  split at hw
  · cases hw
  · cases hw; exact memSet_wf h _ _

/-- A read fails only for a refused address, with the one error of R51. -/
theorem memRead_error {p : Params} {m : Memory} {addr : Word} {k : ErrorKind} (h : memRead p m addr = .error k) :
    addrRefused p addr = true ∧ k = .memoryOutOfBounds := by
  unfold memRead at h
  split at h
  · rename_i ha
    injection h with h
    exact ⟨ha, h.symm⟩
  · cases h

/-- A write fails only for a refused address, with the one error of R52. -/
theorem memWrite_error {p : Params} {m : Memory} {addr v : Word} {k : ErrorKind} (h : memWrite p m addr v = .error k) :
    addrRefused p addr = true ∧ k = .memoryOutOfBounds := by
  unfold memWrite at h
  split at h
  · rename_i ha
    injection h with h
    exact ⟨ha, h.symm⟩
  · cases h

/-- The cells a write leaves are old ones or the written one. -/
theorem mem_memSet {m : Memory} {k : Nat} {v : Word} {c : Nat × Word} (h : c ∈ memSet m k v) : c ∈ m ∨ c = (k, v) := by
  have cons : ∀ m : Memory, c ∈ memCons k v m → c ∈ m ∨ c = (k, v) := fun m hc => by
    unfold memCons at hc; split at hc
    · exact .inl hc
    · rcases List.mem_cons.1 hc with h | h
      · exact .inr h
      · exact .inl h
  induction m with
  | nil => exact cons [] h
  | cons d m ih =>
    obtain ⟨i, w⟩ := d
    unfold memSet at h
    split at h
    · exact cons _ h
    · split at h
      · exact (cons _ h).imp (List.mem_cons_of_mem _) id
      · rcases List.mem_cons.1 h with h | h
        · exact .inl (h ▸ List.mem_cons_self)
        · exact (ih h).imp (List.mem_cons_of_mem _) id

/-- The reset memory has the canonical form. -/
theorem reset_mem_wf (p : Params) : (State.resetWith p).dmem.wf = true := rfl

/-! The word index. -/

theorem wordIndex_eq (addr : Word) : wordIndex addr = addr.toNat / 4 := by
  have := addr.isLt
  simp only [wordIndex, BitVec.extractLsb'_toNat, Nat.shiftRight_eq_div_pow]
  omega

/-! Instruction store. -/

/-- A present slot lies inside the store. -/
theorem lt_length_of_slotAt {im : Store} {k : Word} {i : Instr} (h : slotAt im k = some i) : k.toNat < im.length := by
  unfold slotAt at h
  by_contra hc
  rw [List.getElem?_eq_none (by omega)] at h
  cases h

/-- The slot that was put is the one read there. -/
theorem slotAt_slotPut (im : Store) (k : Word) (x : Option Instr) : slotAt (slotPut im k.toNat x) k = x := by
  unfold slotAt slotPut
  split
  · rename_i h
    rw [List.getElem?_set_self h]
    rfl
  · rename_i h
    have len : (im ++ List.replicate (k.toNat - im.length) none).length = k.toNat := by
      rw [List.length_append, List.length_replicate]
      omega
    rw [List.getElem?_append_right (Nat.le_of_eq len), len, Nat.sub_self]
    rfl

/-! Results. -/

@[simp] theorem andThen_next (s : State) (f : State → Result) : andThen (.next s) f = f s := rfl
@[simp] theorem andThen_fault (e : Fault) (f : State → Result) : andThen (.fault e) f = .fault e := rfl
@[simp] theorem andThen_refused (e : Refusal) (f : State → Result) : andThen (.refused e) f = .refused e := rfl

/-- A sequence that reaches a next state passed through one. -/
theorem andThen_eq_next {r : Result} {f : State → Result} {t : State} (h : andThen r f = .next t) :
    ∃ s, r = .next s ∧ f s = .next t := by
  cases r with
  | next s => exact ⟨s, rfl, h⟩
  | fault e => cases h
  | refused e => cases h

/-- A sequence that faults does so in its first part or, after it, in its second. -/
theorem andThen_eq_fault {r : Result} {f : State → Result} {e : Fault} (h : andThen r f = .fault e) :
    r = .fault e ∨ ∃ s, r = .next s ∧ f s = .fault e := by
  cases r with
  | next s => exact .inr ⟨s, rfl, h⟩
  | fault e' => left; simpa using h
  | refused e' => cases h

/-- A sequence that refuses does so in its first part or, after it, in its second. -/
theorem andThen_eq_refused {r : Result} {f : State → Result} {e : Refusal} (h : andThen r f = .refused e) :
    r = .refused e ∨ ∃ s, r = .next s ∧ f s = .refused e := by
  cases r with
  | next s => exact .inr ⟨s, rfl, h⟩
  | fault e' => cases h
  | refused e' => left; simpa using h

/-- `raise` answers no next state. -/
theorem raise_ne_next (k : ErrorKind) (s t : State) : raise k s ≠ .next t := by simp [raise]

end Sys2Proof.Machine
end

