-- ==== Sys2Proof/Laws/State.lean ====
section
/-! SUPPORT. The named updates of State, field by field (each true by rfl). -/

namespace Sys2Proof.Machine

@[simp] theorem beginCycle_regs (s : State) : (beginCycle s).regs = s.regs := rfl
@[simp] theorem beginCycle_pc (s : State) : (beginCycle s).pc = s.pc := rfl
@[simp] theorem beginCycle_zf (s : State) : (beginCycle s).zf = s.zf := rfl
@[simp] theorem beginCycle_ifid (s : State) : (beginCycle s).ifid = s.ifid := rfl
@[simp] theorem beginCycle_idex (s : State) : (beginCycle s).idex = s.idex := rfl
@[simp] theorem beginCycle_exmem (s : State) : (beginCycle s).exmem = s.exmem := rfl
@[simp] theorem beginCycle_memwb (s : State) : (beginCycle s).memwb = s.memwb := rfl
@[simp] theorem beginCycle_snap (s : State) : (beginCycle s).snap = s.memwb := rfl
@[simp] theorem beginCycle_imem (s : State) : (beginCycle s).imem = s.imem := rfl
@[simp] theorem beginCycle_dmem (s : State) : (beginCycle s).dmem = s.dmem := rfl
@[simp] theorem beginCycle_hazardEn (s : State) : (beginCycle s).hazardEn = s.hazardEn := rfl
@[simp] theorem beginCycle_fwdEn (s : State) : (beginCycle s).fwdEn = s.fwdEn := rfl
@[simp] theorem beginCycle_halted (s : State) : (beginCycle s).halted = s.halted := rfl
@[simp] theorem beginCycle_cycle (s : State) : (beginCycle s).cycle = s.cycle + 1 := rfl
@[simp] theorem beginCycle_stalls (s : State) : (beginCycle s).stalls = s.stalls := rfl
@[simp] theorem beginCycle_fault (s : State) : (beginCycle s).fault = s.fault := rfl
@[simp] theorem beginCycle_params (s : State) : (beginCycle s).params = s.params := rfl

@[simp] theorem redirect_none (s : State) : redirect none s = s := rfl
@[simp] theorem redirect_some (t : Word) (s : State) : redirect (some t) s = { s with pc := t, ifid := none } := rfl
@[simp] theorem redirect_regs (t : Option Word) (s : State) : (redirect t s).regs = s.regs := by cases t <;> rfl
@[simp] theorem redirect_zf (t : Option Word) (s : State) : (redirect t s).zf = s.zf := by cases t <;> rfl
@[simp] theorem redirect_idex (t : Option Word) (s : State) : (redirect t s).idex = s.idex := by cases t <;> rfl
@[simp] theorem redirect_exmem (t : Option Word) (s : State) : (redirect t s).exmem = s.exmem := by cases t <;> rfl
@[simp] theorem redirect_memwb (t : Option Word) (s : State) : (redirect t s).memwb = s.memwb := by cases t <;> rfl
@[simp] theorem redirect_snap (t : Option Word) (s : State) : (redirect t s).snap = s.snap := by cases t <;> rfl
@[simp] theorem redirect_imem (t : Option Word) (s : State) : (redirect t s).imem = s.imem := by cases t <;> rfl
@[simp] theorem redirect_dmem (t : Option Word) (s : State) : (redirect t s).dmem = s.dmem := by cases t <;> rfl
@[simp] theorem redirect_hazardEn (t : Option Word) (s : State) : (redirect t s).hazardEn = s.hazardEn := by cases t <;> rfl
@[simp] theorem redirect_fwdEn (t : Option Word) (s : State) : (redirect t s).fwdEn = s.fwdEn := by cases t <;> rfl
@[simp] theorem redirect_halted (t : Option Word) (s : State) : (redirect t s).halted = s.halted := by cases t <;> rfl
@[simp] theorem redirect_cycle (t : Option Word) (s : State) : (redirect t s).cycle = s.cycle := by cases t <;> rfl
@[simp] theorem redirect_stalls (t : Option Word) (s : State) : (redirect t s).stalls = s.stalls := by cases t <;> rfl
@[simp] theorem redirect_fault (t : Option Word) (s : State) : (redirect t s).fault = s.fault := by cases t <;> rfl
@[simp] theorem redirect_phase (t : Option Word) (s : State) : (redirect t s).phase = s.phase := by cases t <;> rfl
@[simp] theorem redirect_params (t : Option Word) (s : State) : (redirect t s).params = s.params := by cases t <;> rfl

/-- The end of the cycle changes `halted` alone. -/
theorem haltCheck_eq (s : State) : haltCheck s = { s with halted := s.halted || drained s } := by
  unfold haltCheck
  cases h : drained s <;> simp

end Sys2Proof.Machine
end

