-- ==== Sys2Proof/Laws/Stages.lean ====
section
/-! SUPPORT. What each stage procedure can do, said once: the meanings over the shared procedures, and one inversion lemma
per stage. -/

namespace Sys2Proof.Machine

/-- Every meaning is the shared stage procedure with its opcode's row of the two tables (R111, R113). -/
theorem exec_eq_runStage (i : Instr) (s : State) :
    exec i s = runStage i (decodeCtrl i.opcode) (aluOpOf i.opcode) s := by
  cases i <;> rfl

theorem exec_fetch {i : Instr} {s : State} (h : s.phase = .fetch) : exec i s = fetchStage i s := by
  rw [exec_eq_runStage, runStage, h]

theorem exec_decode {i : Instr} {s : State} (h : s.phase = .decode) :
    exec i s = decodeStage i (decodeCtrl i.opcode) s := by
  rw [exec_eq_runStage, runStage, h]

theorem exec_execute {i : Instr} {s : State} (h : s.phase = .execute) :
    exec i s = executeStage i (aluOpOf i.opcode) s := by
  rw [exec_eq_runStage, runStage, h]

theorem exec_memory {i : Instr} {s : State} (h : s.phase = .memory) : exec i s = memoryStage i s := by
  rw [exec_eq_runStage, runStage, h]

theorem exec_writeback {i : Instr} {s : State} (h : s.phase = .writeback) : exec i s = writebackStage s := by
  rw [exec_eq_runStage, runStage, h]

/-- Decode never stops, and it changes `idex`, `pc` and `stalls` alone. -/
theorem decodeStage_cases (i : Instr) (c : Ctrl) (s : State) :
    (s.ifid = none ∧ decodeStage i c s = .next { s with idex := none }) ∨
    (∃ f, s.ifid = some f ∧ hazard s i c = true ∧
      decodeStage i c s = .next { s with idex := none, pc := s.pc - 1, stalls := s.stalls + 1 }) ∨
    (∃ f, s.ifid = some f ∧ hazard s i c = false ∧
      decodeStage i c s = .next { s with idex := some {
        instr := i, ipc := f.ipc, a := regRead s.regs i.rs, b := regRead s.regs i.rt,
        imm := i.imm, dest := destOf i c, ctrl := c } }) := by
  unfold decodeStage
  cases hf : s.ifid with
  | none => exact .inl ⟨rfl, rfl⟩
  | some f =>
    cases hz : hazard s i c
    · exact .inr (.inr ⟨f, rfl, rfl, by simp⟩)
    · exact .inr (.inl ⟨f, rfl, rfl, by simp⟩)

/-- Execute: an empty latch; J's missing operation; or a result, with `pc` and `ifid` changed by a taken transfer. -/
theorem executeStage_cases (i : Instr) (sel : Option AluOp) (s : State) :
    (s.idex = none ∧ executeStage i sel s = .next { s with exmem := none }) ∨
    (∃ e, s.idex = some e ∧ e.ctrl.jump = false ∧ sel = none ∧ executeStage i sel s = raise .unknownOpcode s) ∨
    (∃ e res zf, s.idex = some e ∧
      driveUnit i sel e (forward s i.rs e.a) (forward s i.rt e.b) s = some (res, zf) ∧
      executeStage i sel s = .next (redirect (resolve i e.ctrl (forward s i.rs e.a) e.ipc e.imm zf) { s with
        zf := zf
        exmem := some { instr := i, ipc := e.ipc, alu := res, sd := forward s i.rt e.b, dest := e.dest, ctrl := e.ctrl } })) := by
  unfold executeStage
  cases he : s.idex with
  | none => exact .inl ⟨rfl, rfl⟩
  | some e =>
    cases hd : driveUnit i sel e (forward s i.rs e.a) (forward s i.rt e.b) s with
    | none =>
      refine .inr (.inl ⟨e, rfl, ?_, ?_, by simp [hd]⟩)
      · cases hj : e.ctrl.jump
        · rfl
        · simp [driveUnit, hj] at hd
      · cases hj : e.ctrl.jump
        · cases sel with
          | none => rfl
          | some op => simp [driveUnit, hj] at hd
        · simp [driveUnit, hj] at hd
    | some r =>
      obtain ⟨res, zf⟩ := r
      exact .inr (.inr ⟨e, res, zf, rfl, hd, by simp [hd]⟩)

theorem loadedWord_error {m : ExMem} {s : State} {k : ErrorKind} (h : loadedWord m s = .error k) :
    m.ctrl.memRead = true ∧ addrRefused s.params m.alu = true ∧ k = .memoryOutOfBounds := by
  unfold loadedWord at h
  split at h
  · rename_i hr
    exact ⟨hr, memRead_error h⟩
  · cases h

theorem storedMemory_error {i : Instr} {m : ExMem} {s : State} {k : ErrorKind} (h : storedMemory i m s = .error k) :
    m.ctrl.memWrite = true ∧ addrRefused s.params m.alu = true ∧ k = .memoryOutOfBounds := by
  unfold storedMemory at h
  split at h
  · rename_i hw
    exact ⟨hw, memWrite_error h⟩
  · cases h

/-- Memory: an empty latch; an access out of bounds, which leaves the state but for `fault`; or the new latch and memory. -/
theorem memoryStage_cases (i : Instr) (s : State) :
    (s.exmem = none ∧ memoryStage i s = .next { s with memwb := none }) ∨
    (∃ m, s.exmem = some m ∧ (m.ctrl.memRead = true ∨ m.ctrl.memWrite = true) ∧ addrRefused s.params m.alu = true ∧
      memoryStage i s = raise .memoryOutOfBounds s) ∨
    (∃ m v d, s.exmem = some m ∧ loadedWord m s = .ok v ∧ storedMemory i m s = .ok d ∧
      memoryStage i s = .next { s with
        dmem := d
        memwb := some { instr := i, ipc := m.ipc, alu := m.alu, mem := v, dest := m.dest, ctrl := m.ctrl } }) := by
  unfold memoryStage
  cases hm : s.exmem with
  | none => exact .inl ⟨rfl, rfl⟩
  | some m =>
    cases hl : loadedWord m s with
    | error k =>
      obtain ⟨hr, ha, rfl⟩ := loadedWord_error hl
      exact .inr (.inl ⟨m, rfl, .inl hr, ha, by simp [hl]⟩)
    | ok v =>
      cases hs : storedMemory i m s with
      | error k =>
        obtain ⟨hw, ha, rfl⟩ := storedMemory_error hs
        exact .inr (.inl ⟨m, rfl, .inr hw, ha, by simp [hl, hs]⟩)
      | ok d => exact .inr (.inr ⟨m, v, d, rfl, hl, hs, by simp [hl, hs]⟩)

/-- Writeback never stops, and it changes the register file alone. -/
theorem writebackStage_eq (s : State) :
    writebackStage s = .next { s with regs := match s.memwb with
      | none => s.regs
      | some w => if w.ctrl.regWrite then regWrite s.regs w.dest (wbval w) else s.regs } := by
  obtain ⟨regs, pc, zf, ifid, idex, exmem, memwb, snap, imem, dmem, hz, fw, ha, cy, st, fa, ph, pa⟩ := s
  unfold writebackStage
  cases memwb with
  | none => rfl
  | some w => cases h : w.ctrl.regWrite <;> simp [h]

/-- A store's memory is the old one or the old one with one word written. -/
theorem storedMemory_cases {i : Instr} {m : ExMem} {s : State} {d : Memory} (h : storedMemory i m s = .ok d) :
    (m.ctrl.memWrite = false ∧ d = s.dmem) ∨
    (m.ctrl.memWrite = true ∧ addrRefused s.params m.alu = false ∧
      d = memSet s.dmem (wordIndex m.alu) (storeData s i m)) := by
  unfold storedMemory memWrite at h
  cases hw : m.ctrl.memWrite <;> cases ha : addrRefused s.params m.alu <;> simp_all

end Sys2Proof.Machine
end

