-- ==== Sys2Proof/Laws/Cycle.lean ====
section
/-! SUPPORT. Each phase of the cycle as one equation over the functions of Machine/NextState.lean, and the inversion of a
step: what holds of the five phases when it answers a next state, a fault or a refusal. -/

namespace Sys2Proof.Machine

/-- Writeback always goes on, with the register file written. -/
theorem writebackPhase_eq (s : State) :
    writebackPhase s = .next { s with phase := .writeback, regs := completeMemWb s.memwb s.regs } := by
  obtain ⟨regs, pc, zf, ifid, idex, exmem, memwb, snap, imem, dmem, hz, fw, ha, cy, st, fa, ph, pa⟩ := s
  cases memwb with
  | none => rfl
  | some w =>
    simp only [writebackPhase]
    rw [exec_writeback rfl, writebackStage_eq]
    rfl

/-- Memory raises, or goes on with the new latch and memory. -/
theorem memoryPhase_eq (s : State) :
    memoryPhase s = match memoryOut s with
      | .error k => raise k { s with phase := .memory }
      | .ok (mw, d) => .next { s with phase := .memory, dmem := d, memwb := mw } := by
  obtain ⟨regs, pc, zf, ifid, idex, exmem, memwb, snap, imem, dmem, hz, fw, ha, cy, st, fa, ph, pa⟩ := s
  cases exmem with
  | none => rfl
  | some m =>
    simp only [memoryPhase]
    rw [exec_memory rfl]
    simp only [memoryStage, memoryOut, loadedWord, storedMemory, storeData]
    split
    · rename_i h; simp only [h]
    · rename_i h; simp only [h]
      split
      · rename_i h'; simp only [h']
      · rename_i h'; simp only [h']

/-- Execute asks for J's operation, or goes on with the new latch, the flag and a redirection. -/
theorem executePhase_eq (s : State) :
    executePhase s = match executeOut s with
      | none => raise .unknownOpcode { s with phase := .execute }
      | some x => .next (redirect x.target { s with phase := .execute, zf := x.zf, exmem := x.exmem }) := by
  obtain ⟨regs, pc, zf, ifid, idex, exmem, memwb, snap, imem, dmem, hz, fw, ha, cy, st, fa, ph, pa⟩ := s
  cases idex with
  | none => rfl
  | some e =>
    simp only [executePhase]
    rw [exec_execute rfl]
    simp only [executeStage, driveUnit, executeOut, forward]
    cases e.ctrl.jump
    · cases aluOpOf e.instr.opcode <;> rfl
    · rfl

/-- Decode always goes on. -/
theorem decodePhase_eq (s : State) :
    decodePhase s = .next (match s.ifid with
      | none => { s with phase := .decode, idex := none }
      | some f =>
        if hazard s f.instr (decodeCtrl f.instr.opcode) then
          { s with phase := .decode, idex := none, pc := s.pc - 1, stalls := s.stalls + 1 }
        else { s with phase := .decode, idex := some (decodeOf f s.regs) }) := by
  obtain ⟨regs, pc, zf, ifid, idex, exmem, memwb, snap, imem, dmem, hz, fw, ha, cy, st, fa, ph, pa⟩ := s
  cases ifid with
  | none => rfl
  | some f =>
    simp only [decodePhase]
    rw [exec_decode rfl]
    unfold decodeStage
    show (if hazard (State.mk regs pc zf (some f) idex exmem memwb snap imem dmem hz fw ha cy st fa ph pa)
      f.instr (decodeCtrl f.instr.opcode) then _ else _) = _
    cases hazard (State.mk regs pc zf (some f) idex exmem memwb snap imem dmem hz fw ha cy st fa ph pa)
      f.instr (decodeCtrl f.instr.opcode) <;> rfl

/-- Fetch raises, or goes on with what the slot at `pc` holds. -/
theorem fetchPhase_eq (s : State) :
    fetchPhase s = if s.pc.msb then raise .invalidFetchAddress { s with phase := .fetch }
      else .next { s with phase := .fetch, ifid := fetchAt s.imem s.pc, pc := pcAfterFetch s.imem s.pc } := by
  unfold fetchPhase fetchAt pcAfterFetch
  split
  · rfl
  · cases h : slotAt s.imem s.pc with
    | none => simp
    | some i => simp only [exec_fetch, fetchStage]; simp

/-- The state a cycle has after Writeback. -/
def afterWriteback (s : State) : State :=
  { beginCycle s with phase := .writeback, regs := completeMemWb s.memwb s.regs }

/-- The Memory phase when it goes on. -/
theorem memoryPhase_next {s t : State} (h : memoryPhase s = .next t) :
    ∃ mw d, memoryOut s = .ok (mw, d) ∧ t = { s with phase := .memory, dmem := d, memwb := mw } := by
  rw [memoryPhase_eq] at h
  split at h
  · exact absurd h (raise_ne_next _ _ _)
  · rename_i mw d hm
    cases h
    exact ⟨mw, d, hm, rfl⟩

/-- The Memory phase when it stops. -/
theorem memoryPhase_fault {s : State} {r : Fault} (h : memoryPhase s = .fault r) :
    ∃ k, memoryOut s = .error k ∧ r = .raised k { s with phase := .memory, fault := some k } := by
  rw [memoryPhase_eq] at h
  split at h
  · rename_i k hm
    cases h
    exact ⟨k, hm, rfl⟩
  · cases h

/-- The Execute phase when it goes on. -/
theorem executePhase_next {s t : State} (h : executePhase s = .next t) :
    ∃ x, executeOut s = some x ∧ t = redirect x.target { s with phase := .execute, zf := x.zf, exmem := x.exmem } := by
  rw [executePhase_eq] at h
  split at h
  · exact absurd h (raise_ne_next _ _ _)
  · rename_i x hx
    cases h
    exact ⟨x, hx, rfl⟩

/-- The Execute phase when it stops. -/
theorem executePhase_fault {s : State} {r : Fault} (h : executePhase s = .fault r) :
    executeOut s = none ∧ r = .raised .unknownOpcode { s with phase := .execute, fault := some .unknownOpcode } := by
  rw [executePhase_eq] at h
  split at h
  · rename_i hx
    cases h
    exact ⟨hx, rfl⟩
  · cases h

/-- The Decode phase: nothing to decode, a stall, or a decoded instruction. -/
theorem decodePhase_next {s t : State} (h : decodePhase s = .next t) :
    (s.ifid = none ∧ t = { s with phase := .decode, idex := none }) ∨
    (∃ f, s.ifid = some f ∧ hazard s f.instr (decodeCtrl f.instr.opcode) = true ∧
      t = { s with phase := .decode, idex := none, pc := s.pc - 1, stalls := s.stalls + 1 }) ∨
    (∃ f, s.ifid = some f ∧ hazard s f.instr (decodeCtrl f.instr.opcode) = false ∧
      t = { s with phase := .decode, idex := some (decodeOf f s.regs) }) := by
  rw [decodePhase_eq] at h
  cases h
  cases hf : s.ifid with
  | none => exact .inl ⟨rfl, rfl⟩
  | some f =>
    right
    cases hz : hazard s f.instr (decodeCtrl f.instr.opcode)
    · exact .inr ⟨f, rfl, hz, by simp [hz]⟩
    · exact .inl ⟨f, rfl, hz, by simp [hz]⟩

/-- The Fetch phase when it goes on. -/
theorem fetchPhase_next {s t : State} (h : fetchPhase s = .next t) :
    s.pc.msb = false ∧ t = { s with phase := .fetch, ifid := fetchAt s.imem s.pc, pc := pcAfterFetch s.imem s.pc } := by
  rw [fetchPhase_eq] at h
  split at h
  · exact absurd h (raise_ne_next _ _ _)
  · rename_i hp
    cases h
    exact ⟨by simpa using hp, rfl⟩

/-- The Fetch phase when it stops. -/
theorem fetchPhase_fault {s : State} {r : Fault} (h : fetchPhase s = .fault r) :
    s.pc.msb = true ∧
      r = .raised .invalidFetchAddress { s with phase := .fetch, fault := some .invalidFetchAddress } := by
  rw [fetchPhase_eq] at h
  split at h
  · rename_i hp
    cases h
    exact ⟨hp, rfl⟩
  · cases h

/-- A step of a running core, after its Writeback phase. -/
theorem step_of_running {s : State} (h : stopped s = false) :
    step s = andThen (memoryPhase (afterWriteback s)) fun s₂ =>
      andThen (executePhase s₂) fun s₃ =>
      andThen (decodePhase s₃) fun s₄ =>
      andThen (fetchPhase s₄) fun s₅ => .next (haltCheck s₅) := by
  unfold step runCycle
  rw [h, if_neg Bool.false_ne_true, writebackPhase_eq]
  rfl

theorem step_of_stopped {s : State} (h : stopped s = true) : step s = .next s := by
  unfold step runCycle
  rw [h, if_pos rfl]

/-- A step that answers a next state: the core was stopped and nothing changed, or every phase went on. -/
theorem step_next_cases {s t : State} (h : step s = .next t) :
    (stopped s = true ∧ t = s) ∨
    (stopped s = false ∧ ∃ s₂ s₃ s₄ s₅, memoryPhase (afterWriteback s) = .next s₂ ∧ executePhase s₂ = .next s₃ ∧
      decodePhase s₃ = .next s₄ ∧ fetchPhase s₄ = .next s₅ ∧ t = haltCheck s₅) := by
  cases hs : stopped s
  · rw [step_of_running hs] at h
    obtain ⟨s₂, h₂, h⟩ := andThen_eq_next h
    obtain ⟨s₃, h₃, h⟩ := andThen_eq_next h
    obtain ⟨s₄, h₄, h⟩ := andThen_eq_next h
    obtain ⟨s₅, h₅, h⟩ := andThen_eq_next h
    cases h
    exact .inr ⟨rfl, s₂, s₃, s₄, s₅, h₂, h₃, h₄, h₅, rfl⟩
  · rw [step_of_stopped hs] at h
    cases h
    exact .inl ⟨rfl, rfl⟩

/-- A step that faults: the core was running, and Memory, Execute or Fetch raised. -/
theorem step_fault_cases {s : State} {r : Fault} (h : step s = .fault r) :
    stopped s = false ∧
    (memoryPhase (afterWriteback s) = .fault r ∨
     (∃ s₂, memoryPhase (afterWriteback s) = .next s₂ ∧ executePhase s₂ = .fault r) ∨
     (∃ s₂ s₃ s₄, memoryPhase (afterWriteback s) = .next s₂ ∧ executePhase s₂ = .next s₃ ∧
       decodePhase s₃ = .next s₄ ∧ fetchPhase s₄ = .fault r)) := by
  cases hs : stopped s
  · refine ⟨rfl, ?_⟩
    rw [step_of_running hs] at h
    rcases andThen_eq_fault h with h | ⟨s₂, h₂, h⟩
    · exact .inl h
    rcases andThen_eq_fault h with h | ⟨s₃, h₃, h⟩
    · exact .inr (.inl ⟨s₂, h₂, h⟩)
    rcases andThen_eq_fault h with h | ⟨s₄, h₄, h⟩
    · rw [decodePhase_eq] at h; cases h
    rcases andThen_eq_fault h with h | ⟨s₅, h₅, h⟩
    · exact .inr (.inr ⟨s₂, s₃, s₄, h₂, h₃, h₄, h⟩)
    · cases h
  · rw [step_of_stopped hs] at h; cases h

/-! The cycle in one piece, for a running core. -/

/-- Where Fetch would look and what Decode would see after Execute: a taken transfer has redirected and flushed. -/
def afterExecute (s : State) (target : Option Word) : Option IfId × Word :=
  match target with
  | some t => (none, t)
  | none => (s.ifid, s.pc)

/-- What Decode does with it: the new Decode→Execute latch, the `pc` for Fetch and the stall counter. -/
def afterDecode (s : State) (front : Option IfId × Word) : Option IdEx × Word × Nat :=
  match front.1 with
  | none => (none, front.2, s.stalls)
  | some f =>
    if hazard s f.instr (decodeCtrl f.instr.opcode) then (none, front.2 - 1, s.stalls + 1)
    else (some (decodeOf f (completeMemWb s.memwb s.regs)), front.2, s.stalls)

/-- The state at the end of a cycle whose Memory, Execute and Decode came out as given. -/
def cycleEnd (s : State) (memwb : Option MemWb) (dmem : Memory) (x : ExecuteOut) (dec : Option IdEx × Word × Nat) : State :=
  { s with
    regs := completeMemWb s.memwb s.regs, dmem := dmem, zf := x.zf, pc := pcAfterFetch s.imem dec.2.1, snap := s.memwb
    ifid := fetchAt s.imem dec.2.1, idex := dec.1, exmem := x.exmem, memwb := memwb
    cycle := s.cycle + 1, stalls := dec.2.2, phase := .fetch
    halted := s.halted ||
      ((fetchAt s.imem dec.2.1).isNone && dec.1.isNone && x.exmem.isNone && memwb.isNone) }

/-- A step of a running core as one expression over the start of the cycle. -/
theorem step_eq {s : State} (h : stopped s = false) :
    step s = match memoryOut { s with snap := s.memwb } with
      | .error k => raise k { afterWriteback s with phase := .memory }
      | .ok (mw, d) => match executeOut { s with snap := s.memwb } with
        | none => raise .unknownOpcode { afterWriteback s with phase := .execute, dmem := d, memwb := mw }
        | some x =>
          let front := afterExecute s x.target
          let dec := afterDecode s front
          if dec.2.1.msb then raise .invalidFetchAddress { afterWriteback s with
              phase := .fetch, dmem := d, memwb := mw, zf := x.zf, exmem := x.exmem
              ifid := front.1, idex := dec.1, pc := dec.2.1, stalls := dec.2.2 }
          else .next (cycleEnd s mw d x dec) := by
  rw [step_of_running h, memoryPhase_eq, show memoryOut (afterWriteback s) = memoryOut { s with snap := s.memwb } from rfl]
  cases memoryOut { s with snap := s.memwb } with
  | error k => rfl
  | ok out =>
    obtain ⟨mw, d⟩ := out
    simp only [andThen_next]
    rw [executePhase_eq, show executeOut { afterWriteback s with phase := .memory, dmem := d, memwb := mw } =
      executeOut { s with snap := s.memwb } from rfl]
    cases executeOut { s with snap := s.memwb } with
    | none => rfl
    | some x =>
      obtain ⟨xm, zf, target⟩ := x
      simp only [andThen_next]
      rw [decodePhase_eq]
      simp only [andThen_next]
      obtain ⟨regs, pc, zf', ifid, idex, exmem, memwb, snap, imem, dmem, hz, fw, ha, cy, st, fa, ph, pa⟩ := s
      rw [fetchPhase_eq]
      cases target with
      | some t =>
        simp only [afterExecute, afterDecode, redirect_some]
        by_cases hp : t.msb = true
        · simp only [hp, if_true]
          rfl
        · simp only [hp, Bool.false_eq_true, if_false, andThen_next]
          rw [haltCheck_eq]
          rfl
      | none =>
        cases ifid with
        | none =>
          simp only [afterExecute, afterDecode, redirect_none, afterWriteback, beginCycle]
          by_cases hp : pc.msb = true
          · simp only [hp, if_true]
            rfl
          · simp only [hp, Bool.false_eq_true, if_false, andThen_next]
            rw [haltCheck_eq]
            rfl
        | some f =>
          simp only [afterExecute, afterDecode, redirect_none, afterWriteback, beginCycle]
          have same : ∀ a b c d e g m n r u v w y z, hazard (State.mk a b c d idex e g m n r hz fw u v w y z pa)
              f.instr (decodeCtrl f.instr.opcode) =
            hazard (State.mk regs pc zf' (some f) idex exmem memwb snap imem dmem hz fw ha cy st fa ph pa)
              f.instr (decodeCtrl f.instr.opcode) := fun _ _ _ _ _ _ _ _ _ _ _ _ _ _ => rfl
          simp only [same]
          by_cases hh : hazard (State.mk regs pc zf' (some f) idex exmem memwb snap imem dmem hz fw ha cy st fa ph pa)
            f.instr (decodeCtrl f.instr.opcode) = true
          · simp only [hh, if_true]
            by_cases hp : (pc - 1).msb = true
            · simp only [hp, if_true]
              rfl
            · simp only [hp, Bool.false_eq_true, if_false, andThen_next]
              rw [haltCheck_eq]
              rfl
          · simp only [hh, Bool.false_eq_true, if_false]
            by_cases hp : pc.msb = true
            · simp only [hp, if_true]
              rfl
            · simp only [hp, Bool.false_eq_true, if_false, andThen_next]
              rw [haltCheck_eq]
              rfl

/-- The step of a running core that meets no error. -/
theorem step_of_parts {s : State} {mw : Option MemWb} {d : Memory} {x : ExecuteOut} (h : stopped s = false)
    (hm : memoryOut { s with snap := s.memwb } = .ok (mw, d)) (hx : executeOut { s with snap := s.memwb } = some x)
    (hp : (afterDecode s (afterExecute s x.target)).2.1.msb = false) :
    step s = .next (cycleEnd s mw d x (afterDecode s (afterExecute s x.target))) := by
  rw [step_eq h, hm, hx]
  simp only [hp, Bool.false_eq_true, if_false]

/-- What a step of a running core that answers a next state is made of. -/
theorem step_next_parts {s t : State} (h : stopped s = false) (ht : step s = .next t) :
    ∃ mw d x, memoryOut { s with snap := s.memwb } = .ok (mw, d) ∧ executeOut { s with snap := s.memwb } = some x ∧
      (afterDecode s (afterExecute s x.target)).2.1.msb = false ∧
      t = cycleEnd s mw d x (afterDecode s (afterExecute s x.target)) := by
  rw [step_eq h] at ht
  cases hm : memoryOut { s with snap := s.memwb } with
  | error k => rw [hm] at ht; exact absurd ht (raise_ne_next _ _ _)
  | ok out =>
    obtain ⟨mw, d⟩ := out
    cases hx : executeOut { s with snap := s.memwb } with
    | none => rw [hm, hx] at ht; exact absurd ht (raise_ne_next _ _ _)
    | some x =>
      rw [hm, hx] at ht
      simp only at ht
      split at ht
      · exact absurd ht (raise_ne_next _ _ _)
      · rename_i hp
        cases ht
        exact ⟨mw, d, x, rfl, rfl, by simpa using hp, rfl⟩

/-! Runs. -/

/-- A run whose first step answers a next state goes on from there. -/
theorem run_succ_of_next {s t : State} (h : step s = .next t) (n : Nat) :
    Host.Core.run Sys2Proof.core (n + 1) s = Host.Core.run Sys2Proof.core n t := by
  simp only [Host.Core.run]
  rw [show Sys2Proof.core.step s = .next t from h]

/-- A run whose first step faults ends there. -/
theorem run_succ_of_fault {s : State} {r : Fault} (h : step s = .fault r) (n : Nat) :
    Host.Core.run Sys2Proof.core (n + 1) s = .fault r := by
  simp only [Host.Core.run]
  rw [show Sys2Proof.core.step s = .fault r from h]

/-- A safe run of at least one step starts with a step that answers a next state. -/
theorem safeRun_succ {s t : State} {n : Nat} (h : SafeRun (n + 1) s t) : ∃ u, step s = .next u ∧ SafeRun n u t := by
  cases hs : step s with
  | next u => exact ⟨u, rfl, (run_succ_of_next hs n).symm.trans h⟩
  | fault r =>
    unfold SafeRun at h
    rw [run_succ_of_fault hs] at h
    cases h
  | refused r =>
    unfold SafeRun at h
    simp only [Host.Core.run] at h
    rw [show Sys2Proof.core.step s = .refused r from hs] at h
    cases h

end Sys2Proof.Machine
end

