-- ==== Sys2Proof/Laws/Decode.lean ====
section
/-! SUPPORT. The fields of the three word forms: what each field function reads from a word that `wordR`, `wordI` or `wordJ`
has put together. -/

namespace Sys2Proof

/-- Appending is multiplying by the power and adding. -/
theorem toNat_append_eq {n m : Nat} (x : BitVec n) (y : BitVec m) : (x ++ y).toNat = x.toNat * 2 ^ m + y.toNat := by
  rw [BitVec.toNat_append, ← Nat.shiftLeft_add_eq_or_of_lt y.isLt, Nat.shiftLeft_eq]

/-- A format R word as a number. -/
theorem wordR_toNat (rs rt rd : Reg) (sh : BitVec 5) (fn : BitVec 6) :
    (wordR rs rt rd sh fn).toNat =
      rs.toNat * 2 ^ 21 + rt.toNat * 2 ^ 16 + rd.toNat * 2 ^ 11 + sh.toNat * 2 ^ 6 + fn.toNat := by
  have h : (wordR rs rt rd sh fn).toNat = ((0 : BitVec 6) ++ rs ++ rt ++ rd ++ sh ++ fn).toNat := rfl
  simp only [h, toNat_append_eq]
  simp
  omega

/-- A format I word as a number. -/
theorem wordI_toNat (op : BitVec 6) (rs rt : Reg) (imm : Word) :
    (wordI op rs rt imm).toNat = op.toNat * 2 ^ 26 + rs.toNat * 2 ^ 21 + rt.toNat * 2 ^ 16 + imm.toNat % 2 ^ 16 := by
  have h : (wordI op rs rt imm).toNat = (op ++ rs ++ rt ++ imm.setWidth 16).toNat := rfl
  simp only [h, toNat_append_eq, BitVec.toNat_setWidth]
  omega

/-- A format J word as a number. -/
theorem wordJ_toNat (addr : Word) : (wordJ addr).toNat = 2 * 2 ^ 26 + addr.toNat % 2 ^ 26 := by
  have h : (wordJ addr).toNat = ((0x02 : BitVec 6) ++ addr.setWidth 26).toNat := rfl
  simp only [h, toNat_append_eq, BitVec.toNat_setWidth]
  rfl

/-- A field of a word as a number. -/
theorem field_toNat (w : Word) (lo n : Nat) : (w.extractLsb' lo n).toNat = w.toNat / 2 ^ lo % 2 ^ n := by
  rw [BitVec.extractLsb'_toNat, Nat.shiftRight_eq_div_pow]

section FormatR

variable (rs rt rd : Reg) (sh : BitVec 5) (fn : BitVec 6)

@[simp] theorem opField_wordR : opField (wordR rs rt rd sh fn) = 0 := by
  apply BitVec.eq_of_toNat_eq
  have := rs.isLt; have := rt.isLt; have := rd.isLt; have := sh.isLt; have := fn.isLt
  rw [opField, field_toNat, wordR_toNat]
  show _ = 0
  omega

@[simp] theorem rsField_wordR : rsField (wordR rs rt rd sh fn) = rs := by
  apply BitVec.eq_of_toNat_eq
  have := rs.isLt; have := rt.isLt; have := rd.isLt; have := sh.isLt; have := fn.isLt
  rw [rsField, field_toNat, wordR_toNat]
  omega

@[simp] theorem rtField_wordR : rtField (wordR rs rt rd sh fn) = rt := by
  apply BitVec.eq_of_toNat_eq
  have := rs.isLt; have := rt.isLt; have := rd.isLt; have := sh.isLt; have := fn.isLt
  rw [rtField, field_toNat, wordR_toNat]
  omega

@[simp] theorem rdField_wordR : rdField (wordR rs rt rd sh fn) = rd := by
  apply BitVec.eq_of_toNat_eq
  have := rs.isLt; have := rt.isLt; have := rd.isLt; have := sh.isLt; have := fn.isLt
  rw [rdField, field_toNat, wordR_toNat]
  omega

@[simp] theorem shField_wordR : shField (wordR rs rt rd sh fn) = sh := by
  apply BitVec.eq_of_toNat_eq
  have := rs.isLt; have := rt.isLt; have := rd.isLt; have := sh.isLt; have := fn.isLt
  rw [shField, field_toNat, wordR_toNat]
  omega

@[simp] theorem fnField_wordR : fnField (wordR rs rt rd sh fn) = fn := by
  apply BitVec.eq_of_toNat_eq
  have := rs.isLt; have := rt.isLt; have := rd.isLt; have := sh.isLt; have := fn.isLt
  rw [fnField, field_toNat, wordR_toNat]
  omega

end FormatR

section FormatI

variable (op : BitVec 6) (rs rt : Reg) (imm : Word)

@[simp] theorem opField_wordI : opField (wordI op rs rt imm) = op := by
  apply BitVec.eq_of_toNat_eq
  have := op.isLt; have := rs.isLt; have := rt.isLt; have := imm.isLt
  rw [opField, field_toNat, wordI_toNat]
  omega

@[simp] theorem rsField_wordI : rsField (wordI op rs rt imm) = rs := by
  apply BitVec.eq_of_toNat_eq
  have := op.isLt; have := rs.isLt; have := rt.isLt; have := imm.isLt
  rw [rsField, field_toNat, wordI_toNat]
  omega

@[simp] theorem rtField_wordI : rtField (wordI op rs rt imm) = rt := by
  apply BitVec.eq_of_toNat_eq
  have := op.isLt; have := rs.isLt; have := rt.isLt; have := imm.isLt
  rw [rtField, field_toNat, wordI_toNat]
  omega

/-- An immediate that fits 16 signed bits survives the word and its sign extension (R77, R81). -/
theorem immField_wordI (h : immFits imm) : immField (wordI op rs rt imm) = imm := by
  have field : (wordI op rs rt imm).extractLsb' 0 16 = imm.setWidth 16 := by
    apply BitVec.eq_of_toNat_eq
    rw [field_toNat, wordI_toNat, BitVec.toNat_setWidth]
    omega
  unfold immField
  rw [field]
  apply BitVec.eq_of_toInt_eq
  unfold immFits s32 at h
  have low := BitVec.toNat_setWidth 16 imm
  rw [BitVec.toInt_signExtend_of_le (by decide), BitVec.toInt_eq_toNat_cond, low]
  rw [BitVec.toInt_eq_toNat_cond] at h ⊢
  have := imm.isLt
  split at h <;> split <;> omega

end FormatI

@[simp] theorem opField_wordJ (addr : Word) : opField (wordJ addr) = 0x02 := by
  apply BitVec.eq_of_toNat_eq
  rw [opField, field_toNat, wordJ_toNat]
  show _ = 2
  omega

/-- An address below 2^26 survives the word (R77, R81). -/
theorem addrField_wordJ (addr : Word) (h : addrFits addr) : addrField (wordJ addr) = addr := by
  apply BitVec.eq_of_toNat_eq
  unfold addrFits at h
  rw [addrField, BitVec.toNat_setWidth, field_toNat, wordJ_toNat]
  omega

/-! A word is put together from its own fields. -/

theorem eq_wordR_of_fields {w : Word} (h : opField w = 0) :
    w = wordR (rsField w) (rtField w) (rdField w) (shField w) (fnField w) := by
  have h' : w.toNat / 2 ^ 26 % 2 ^ 6 = 0 := by rw [← field_toNat]; exact congrArg BitVec.toNat h
  apply BitVec.eq_of_toNat_eq
  have := w.isLt
  rw [wordR_toNat, rsField, rtField, rdField, shField, fnField]
  simp only [field_toNat]
  omega

theorem eq_wordI_of_fields (w : Word) : w = wordI (opField w) (rsField w) (rtField w) (immField w) := by
  apply BitVec.eq_of_toNat_eq
  have := w.isLt
  have low : (immField w).toNat % 2 ^ 16 = w.toNat % 2 ^ 16 := by
    rw [immField, BitVec.toNat_signExtend, BitVec.toNat_setWidth, field_toNat]
    split <;> omega
  rw [wordI_toNat, low, opField, rsField, rtField]
  simp only [field_toNat]
  omega

theorem eq_wordJ_of_fields {w : Word} (h : opField w = 0x02) : w = wordJ (addrField w) := by
  have h' : w.toNat / 2 ^ 26 % 2 ^ 6 = 2 := by rw [← field_toNat]; exact congrArg BitVec.toNat h
  apply BitVec.eq_of_toNat_eq
  have := w.isLt
  rw [wordJ_toNat, addrField, BitVec.toNat_setWidth, field_toNat]
  omega

/-- A decoded immediate fits 16 signed bits (R77, R81). -/
theorem immFits_immField (w : Word) : immFits (immField w) := by
  unfold immFits immField s32
  rw [BitVec.toInt_signExtend_of_le (by decide)]
  have lower := BitVec.le_toInt (w.extractLsb' 0 16)
  have upper := BitVec.toInt_lt (x := w.extractLsb' 0 16)
  simp only [Nat.reduceSub] at lower upper
  omega

/-- A decoded jump address is below 2^26 (R77, R81). -/
theorem addrFits_addrField (w : Word) : addrFits (addrField w) := by
  unfold addrFits
  rw [addrField, BitVec.toNat_setWidth, field_toNat]
  omega

end Sys2Proof
end

