-- ==== Sys2Proof/Laws/Loader.lean ====
section
/-! SUPPORT. What the loader does, said once: installing a store, and reading a sequence of records into slots. -/

namespace Sys2Proof.Machine

/-- Before the first step a store of at most 2^31 slots is installed, and a longer one refused. -/
theorem installStore_of_fresh {s : State} (h : fresh s = true) (im : Store) :
    installStore im s = if im.length ≤ maxProgLen then .next { s with imem := im } else .refused .programTooLong := by
  unfold installStore
  rw [h]
  by_cases hl : im.length ≤ maxProgLen
  · rw [if_pos hl, if_neg (by simp), if_neg (Nat.not_lt.mpr hl)]
  · rw [if_neg hl, if_neg (by simp), if_pos (Nat.lt_of_not_le hl)]

/-- Later every store is refused. -/
theorem installStore_of_not_fresh {s : State} (h : fresh s = false) (im : Store) :
    installStore im s = .refused .loadWithoutReset := by
  unfold installStore
  rw [h]
  rfl

@[simp] theorem slotsOfRecords_nil (so : ShiftOperands) : slotsOfRecords so [] = some [] := rfl

@[simp] theorem slotsOfRecords_none (so : ShiftOperands) (rs : List (Option Record)) :
    slotsOfRecords so (none :: rs) = (slotsOfRecords so rs).map (none :: ·) := rfl

@[simp] theorem slotsOfRecords_some (so : ShiftOperands) (r : Record) (rs : List (Option Record)) :
    slotsOfRecords so (some r :: rs) =
      (recordInstr so r).bind fun i => (slotsOfRecords so rs).map (some i :: ·) := rfl

/-- One record that is read as no instruction leaves the whole sequence without slots. -/
theorem slotsOfRecords_eq_none {so : ShiftOperands} {r : Record} (h : recordInstr so r = none) :
    ∀ {rs : List (Option Record)}, some r ∈ rs → slotsOfRecords so rs = none
  | none :: rs, hm => by
    have := slotsOfRecords_eq_none h (rs := rs) (by simpa using hm)
    simp [this]
  | some q :: rs, hm => by
    rcases List.mem_cons.mp hm with hq | hq
    · cases hq
      simp [h]
    · have := slotsOfRecords_eq_none h hq
      cases hr : recordInstr so q <;> simp [hr, this]

/-- Records that are read back as their instructions give one slot per element. -/
theorem slotsOfRecords_map_toRecord {so : ShiftOperands} :
    ∀ {slots : Store}, (∀ i, some i ∈ slots → recordInstr so i.toRecord = some i) →
      slotsOfRecords so (slots.map (Option.map Instr.toRecord)) = some slots
  | [], _ => rfl
  | none :: slots, h => by
    have := slotsOfRecords_map_toRecord (slots := slots) fun i hi => h i (List.mem_cons_of_mem _ hi)
    simp [this]
  | some i :: slots, h => by
    have := slotsOfRecords_map_toRecord (slots := slots) fun j hj => h j (List.mem_cons_of_mem _ hj)
    simp [this, h i (List.mem_cons_self)]

end Sys2Proof.Machine
end

