-- ==== Sys2Proof/Laws/PerInstr.lean ====
section
/-! SUPPORT. Statements about every instruction as syntax, one lemma per constructor. -/

namespace Sys2Proof

namespace Laws.RecordFields

/-- The record of an instruction (30_encoding.md R70, R71) holds every field of it: cutting the record's fields to their
widths gives the instruction back. -/
def Statement (i : Instr) : Prop := i.toRecord.truncate = i

theorem add (rd rs rt : Reg) : Statement (.add rd rs rt) := by
  simp [Statement, Record.truncate, Instr.toRecord, Instr.opcode, Instr.rd, Instr.rs, Instr.rt]
theorem sub (rd rs rt : Reg) : Statement (.sub rd rs rt) := by
  simp [Statement, Record.truncate, Instr.toRecord, Instr.opcode, Instr.rd, Instr.rs, Instr.rt]
theorem and (rd rs rt : Reg) : Statement (.and rd rs rt) := by
  simp [Statement, Record.truncate, Instr.toRecord, Instr.opcode, Instr.rd, Instr.rs, Instr.rt]
theorem or (rd rs rt : Reg) : Statement (.or rd rs rt) := by
  simp [Statement, Record.truncate, Instr.toRecord, Instr.opcode, Instr.rd, Instr.rs, Instr.rt]
theorem xor (rd rs rt : Reg) : Statement (.xor rd rs rt) := by
  simp [Statement, Record.truncate, Instr.toRecord, Instr.opcode, Instr.rd, Instr.rs, Instr.rt]
theorem slt (rd rs rt : Reg) : Statement (.slt rd rs rt) := by
  simp [Statement, Record.truncate, Instr.toRecord, Instr.opcode, Instr.rd, Instr.rs, Instr.rt]
theorem sll (rd rs rt : Reg) (shamt : BitVec 5) : Statement (.sll rd rs rt shamt) := by
  simp [Statement, Record.truncate, Instr.toRecord, Instr.opcode, Instr.rd, Instr.rs, Instr.rt, Instr.shamt]
theorem srl (rd rs rt : Reg) (shamt : BitVec 5) : Statement (.srl rd rs rt shamt) := by
  simp [Statement, Record.truncate, Instr.toRecord, Instr.opcode, Instr.rd, Instr.rs, Instr.rt, Instr.shamt]
theorem addi (rt rs : Reg) (imm : Word) : Statement (.addi rt rs imm) := by
  simp [Statement, Record.truncate, Instr.toRecord, Instr.opcode, Instr.rs, Instr.rt, Instr.imm]
theorem ori (rt rs : Reg) (imm : Word) : Statement (.ori rt rs imm) := by
  simp [Statement, Record.truncate, Instr.toRecord, Instr.opcode, Instr.rs, Instr.rt, Instr.imm]
theorem lw (rt rs : Reg) (imm : Word) : Statement (.lw rt rs imm) := by
  simp [Statement, Record.truncate, Instr.toRecord, Instr.opcode, Instr.rs, Instr.rt, Instr.imm]
theorem sw (rt rs : Reg) (imm : Word) : Statement (.sw rt rs imm) := by
  simp [Statement, Record.truncate, Instr.toRecord, Instr.opcode, Instr.rs, Instr.rt, Instr.imm]
theorem beq (rs rt : Reg) (imm : Word) : Statement (.beq rs rt imm) := by
  simp [Statement, Record.truncate, Instr.toRecord, Instr.opcode, Instr.rs, Instr.rt, Instr.imm]
theorem bgez (rs : Reg) (imm : Word) : Statement (.bgez rs imm) := by
  simp [Statement, Record.truncate, Instr.toRecord, Instr.opcode, Instr.rs, Instr.imm]
theorem j (addr : Word) : Statement (.j addr) := by
  simp [Statement, Record.truncate, Instr.toRecord, Instr.opcode, Instr.addr]

end Laws.RecordFields

end Sys2Proof
end

