-- ==== Sys2Proof/Tests/Slice0.lean ====
section
/-! SUPPORT. Tests of the model on words and values that 95_test_vectors.md or the encoding tables of 30_encoding.md give,
and one witness per statement of Certificates/Slice0/Obligations.lean that has hypotheses. -/

namespace Sys2Proof.Tests

open Sys2Proof.Machine

/-! ## WellFormed refuses -/

theorem test_wellFormed_immediate_too_high : (Instr.addi 1 0 0x00008000).wellFormed .rtShamt = false := by decide
theorem test_wellFormed_immediate_too_low : (Instr.lw 1 0 0xFFFF7FFF).wellFormed .rtShamt = false := by decide
theorem test_wellFormed_address_too_high : (Instr.j 0x04000000).wellFormed .rtShamt = false := by decide
theorem test_wellFormed_shift_with_rs : (Instr.sll 3 1 2 4).wellFormed .rtShamt = false := by decide
theorem test_wellFormed_shift_with_shamt : (Instr.srl 3 1 2 4).wellFormed .rsRt = false := by decide
theorem test_wellFormed_bounds_pass :
    (Instr.beq 1 2 0xFFFF8000).wellFormed .rtShamt = true ∧ (Instr.ori 1 2 0x00007FFF).wellFormed .rtShamt = true ∧
    (Instr.j 0x03FFFFFF).wellFormed .rtShamt = true ∧ (Instr.sll 3 0 2 31).wellFormed .rtShamt = true ∧
    (Instr.sll 3 31 2 0).wellFormed .rsRt = true := by decide

/-! ## Decoding: the words of 95_test_vectors.md section 2.3 -/

theorem test_decode_add : decode 0b000000_00001_00010_00011_00000_100000 = some (.add 3 1 2) := by decide
theorem test_decode_sub : decode 0b000000_00011_00001_00100_00000_100010 = some (.sub 4 3 1) := by decide
theorem test_decode_and : decode 0b000000_00001_00010_00011_00000_100100 = some (.and 3 1 2) := by decide
theorem test_decode_or : decode 0b000000_00001_00010_00011_00000_100101 = some (.or 3 1 2) := by decide
theorem test_decode_xor : decode 0b000000_00001_00010_00011_00000_100110 = some (.xor 3 1 2) := by decide
theorem test_decode_slt : decode 0b000000_00001_00010_00011_00000_101010 = some (.slt 3 1 2) := by decide
theorem test_decode_sll : decode 0b000000_00000_00010_00011_00100_000000 = some (.sll 3 0 2 4) := by decide
theorem test_decode_srl : decode 0b000000_00000_00010_00011_00100_000010 = some (.srl 3 0 2 4) := by decide
theorem test_decode_addi : decode 0b001000_00001_00001_1111111111111111 = some (.addi 1 1 0xFFFFFFFF) := by decide
theorem test_decode_ori : decode 0b001101_00000_00010_1111111111111111 = some (.ori 2 0 0xFFFFFFFF) := by decide
theorem test_decode_lw : decode 0b100011_00001_00010_0000000000000000 = some (.lw 2 1 0) := by decide
theorem test_decode_sw : decode 0b101011_00001_00010_0000000000000100 = some (.sw 2 1 4) := by decide
theorem test_decode_beq : decode 0b000100_00001_00010_0000000000000001 = some (.beq 1 2 1) := by decide
theorem test_decode_bgez : decode 0b000001_00001_00001_1111111111111110 = some (.bgez 1 0xFFFFFFFE) := by decide
theorem test_decode_j : decode 0b000010_11111111111111111111111111 = some (.j 0x03FFFFFF) := by decide
theorem test_decode_zero_word : decode 0 = some (.sll 0 0 0 0) := by decide

/-- Under `SHIFT_OPERANDS = rs_rt` a shift word has an `rs` and no `shamt` (42_arith_logic.md R188). -/
theorem test_decode_shift_rs_rt :
    decodeWith .rsRt 0b000000_00001_00010_00011_00000_000000 = .ok (.sll 3 1 2 0) ∧
    decodeWith .rsRt 0b000000_00001_00010_00011_00000_000010 = .ok (.srl 3 1 2 0) ∧
    decodeWith .rsRt 0b000000_00000_00010_00011_00100_000000 = .error .shamtNotZero := by decide

/-- The rows of section 2.3 that are no instruction, each refused under its name. -/
theorem test_decode_refusals :
    decodeWith .rtShamt 0x00000021 = .error .noSuchFunct ∧ decodeWith .rtShamt 0x00000060 = .error .shamtNotZero ∧
    decodeWith .rtShamt 0x00200000 = .error .rsNotZero ∧ decodeWith .rtShamt 0x04000000 = .error .notBgez ∧
    decodeWith .rtShamt 0x0C000000 = .error .noSuchOp ∧ decodeWith .rtShamt 0xFFFFFFFF = .error .noSuchOp := by decide

theorem test_encode : encode (.addi 1 1 0xFFFFFFFF) = 0x2021FFFF ∧ encode (.bgez 1 0xFFFFFFFE) = 0x0421FFFE ∧
    encode (.sw 2 1 4) = 0xAC220004 ∧ encode (.j 3) = 0x08000003 := by decide

theorem test_decodeTableWord : decodeTableWord 32 0x8C220000 = some (.lw 2 1 0) ∧ decodeTableWord 32 1 = none := by decide

/-! ## One step of one instruction: the values of 95_test_vectors.md section 2.4 -/

/-- The reset state about to run a stage procedure. -/
def inStage (ph : Stage) : State := { State.reset with phase := ph }

/-- `i` in Execute with the register values `a` and `b`, fetched from index 2. -/
def inExecute (i : Instr) (a b : Word) : State :=
  { inStage .execute with
    pc := 4
    idex := some ⟨i, 2, a, b, i.imm, destOf i (decodeCtrl i.opcode), decodeCtrl i.opcode⟩ }

/-- `i` in Memory with an address and store data. -/
def inMemory (i : Instr) (addr data : Word) : State :=
  { inStage .memory with
    exmem := some ⟨i, 2, addr, data, destOf i (decodeCtrl i.opcode), decodeCtrl i.opcode⟩
    dmem := [(2, 77)] }

/-- The result and the zero flag that Execute leaves. -/
def resultOf (r : Result) : Option (Word × Bool) :=
  match r with
  | .next t => t.exmem.map fun m => (m.alu, t.zf)
  | _ => none

/-- The index that fetching goes on from. -/
def pcOf (r : Result) : Option Word :=
  match r with
  | .next t => some t.pc
  | _ => none

theorem test_exec_add : resultOf (exec (.add 3 1 2) (inExecute (.add 3 1 2) 0x7FFFFFFF 1)) = some (0x80000000, false) := by
  decide
theorem test_exec_sub : resultOf (exec (.sub 3 1 2) (inExecute (.sub 3 1 2) 0 1)) = some (0xFFFFFFFF, false) := by decide
theorem test_exec_and :
    resultOf (exec (.and 3 1 2) (inExecute (.and 3 1 2) 0xF0F0F0F0 0x0FF00FF0)) = some (0x00F000F0, false) := by decide
theorem test_exec_or :
    resultOf (exec (.or 3 1 2) (inExecute (.or 3 1 2) 0xF0F0F0F0 0x0FF00FF0)) = some (0xFFF0FFF0, false) := by decide
theorem test_exec_xor : resultOf (exec (.xor 3 1 1) (inExecute (.xor 3 1 1) 0x1234 0x1234)) = some (0, true) := by decide
theorem test_exec_slt :
    resultOf (exec (.slt 3 1 2) (inExecute (.slt 3 1 2) 0x80000000 0x7FFFFFFF)) = some (1, false) := by decide
theorem test_exec_sll : resultOf (exec (.sll 3 0 2 31) (inExecute (.sll 3 0 2 31) 0 3)) = some (0x80000000, false) := by
  decide
theorem test_exec_srl : resultOf (exec (.srl 3 0 2 31) (inExecute (.srl 3 0 2 31) 0 0x80000000)) = some (1, false) := by
  decide
theorem test_exec_addi :
    resultOf (exec (.addi 1 1 32767) (inExecute (.addi 1 1 32767) 0x7FFFFFFF 0)) = some (0x80007FFE, false) := by decide
theorem test_exec_ori :
    resultOf (exec (.ori 2 1 0xFFFF8000) (inExecute (.ori 2 1 0xFFFF8000) 1 0)) = some (0xFFFF8001, false) := by decide
theorem test_exec_lw_address : resultOf (exec (.lw 2 1 6) (inExecute (.lw 2 1 6) 4 0)) = some (10, false) := by decide
theorem test_exec_sw_address :
    resultOf (exec (.sw 2 0 0xFFFFFFFC) (inExecute (.sw 2 0 0xFFFFFFFC) 0 1)) = some (0xFFFFFFFC, false) := by decide

/-- `LW $2,6($1)`: address 10 selects word 2. -/
theorem test_exec_lw_loads : (match exec (.lw 2 1 6) (inMemory (.lw 2 1 6) 10 0) with
    | .next t => t.memwb.map fun w => (w.mem, w.dest)
    | _ => none) = some (77, 2) := by decide

/-- `SW $2,3($0)`: address 3 selects word 0. -/
theorem test_exec_sw_stores : (match exec (.sw 2 0 3) (inMemory (.sw 2 0 3) 3 9) with
    | .next t => some t.dmem
    | _ => none) = some [(0, 9), (2, 77)] := by decide

/-- T4: `BEQ $1,$2,1` at index 2 with equal operands goes to index 4. -/
theorem test_exec_beq_taken : pcOf (exec (.beq 1 2 1) { inExecute (.beq 1 2 1) 5 5 with pc := 9 }) = some 4 := by decide
theorem test_exec_beq_not_taken : pcOf (exec (.beq 1 2 1) (inExecute (.beq 1 2 1) 5 6)) = some 4 := by decide
theorem test_exec_bgez_zero_taken : pcOf (exec (.bgez 1 0xFFFFFFFD) (inExecute (.bgez 1 0xFFFFFFFD) 0 0)) = some 0 := by
  decide
theorem test_exec_bgez_negative : pcOf (exec (.bgez 1 2) (inExecute (.bgez 1 2) 0x80000000 0)) = some 4 := by decide
theorem test_exec_j : pcOf (exec (.j 7) (inExecute (.j 7) 0 0)) = some 7 := by decide

/-- The shifts under the other operand selection: the value of `rs` by the low five bits of `rt` (R188, D7). -/
theorem test_exec_sll_rs_rt :
    resultOf (exec (.sll 3 1 2 0) { inExecute (.sll 3 1 2 0) 1 0x25 with
      params := { Params.default with shiftOperands := .rsRt } }) = some (0x20, false) := by decide
theorem test_exec_srl_rs_rt :
    resultOf (exec (.srl 3 1 2 0) { inExecute (.srl 3 1 2 0) 0x80000000 0x20 with
      params := { Params.default with shiftOperands := .rsRt } }) = some (0x80000000, false) := by decide

/-- A table row's word is fetched by the first step after reset. -/
theorem test_first_step : (match step (State.reset.withFetchWord 32 0x00221820) with
    | .next t => (t.ifid, t.pc, t.cycle)
    | _ => (none, 0, 0)) = (some ⟨.add 3 1 2, 0⟩, 1, 1) := by decide

/-- Reset with nothing loaded: the core halts at the end of cycle 1 with `pc` 0 (section 2.9). -/
theorem test_empty_program : (match step State.reset with
    | .next t => (t.halted, t.cycle, t.pc)
    | _ => (false, 0, 1)) = (true, 1, 0) := by decide

/-! ## Witnesses: each statement's hypotheses hold together somewhere -/

/-- A result is a next state with a property that evaluates to true. -/
theorem exists_next {r : Result} {p : State → Bool} (h : (match r with | .next t => p t | _ => false) = true) :
    ∃ t, r = .next t ∧ p t = true := by
  cases r with
  | next t => exact ⟨t, rfl, h⟩
  | fault e => cases h
  | refused e => cases h

/-- A result is a fault with a property that evaluates to true. -/
theorem exists_fault {r : Result} {p : ErrorKind → State → Bool}
    (h : (match r with | .fault (.raised k t) => p k t | _ => false) = true) :
    ∃ k t, r = .fault (.raised k t) ∧ p k t = true := by
  cases r with
  | next t => cases h
  | fault e => obtain ⟨k, t⟩ := e; exact ⟨k, t, rfl, h⟩
  | refused e => cases h

theorem witness_EncodeDecodeRoundTrip : (Instr.addi 31 0 0xFFFF8000).wellFormed .rtShamt = true ∧
    (Instr.srl 31 31 31 0).wellFormed .rsRt = true ∧ (Instr.j 0x03FFFFFF).wellFormed .rtShamt = true ∧
    decodeWith .rtShamt 0x201F8000 = .ok (.addi 31 0 0xFFFF8000) := by
  decide

theorem witness_DecoderYieldsOnlyWellFormed : decodeWith .rsRt 0x00221800 = .ok (.sll 3 1 2 0) ∧
    decodeWith .rtShamt 0x34017FFF = .ok (.ori 1 0 0x7FFF) := by decide

theorem witness_WordsMatchOneMask : (0x0421FFFE : Word) &&& specMask .BGEZ = specMatch .BGEZ ∧
    (0x00000000 : Word) &&& specMask .SLL = specMatch .SLL := by decide

theorem witness_LoaderTakesWellFormedRecords :
    recordInstr .rtShamt ⟨.ADDI, .I, 0, 1, 0, -32768, 0, 0⟩ = some (.addi 1 0 0xFFFF8000) ∧
    recordInstr .rtShamt ⟨.ADDI, .I, 0, 1, 0, -32769, 0, 0⟩ = none ∧
    recordInstr .rtShamt ⟨.ADD, .R, 32, 1, 0, 0, 0, 0⟩ = none ∧
    recordInstr .rtShamt ⟨.ADD, .R, 1, 1, 0, 0, 1, 0⟩ = none ∧
    fresh State.reset = true ∧ ([none, some (.add 3 1 2)] : Store).length ≤ maxProgLen ∧
    (∀ i, some i ∈ ([none, some (.add 3 1 2)] : Store) → i.wellFormed State.reset.params.shiftOperands = true) := by
  refine ⟨by decide, by decide, by decide, by decide, by decide, by decide, ?_⟩
  intro i h
  simp at h
  subst h
  rfl

/-- An ADD whose `shamt` is 1 is the record of no instruction: ADD does not use that field (R71). -/
theorem witness_LoaderTakesWellFormedRecords_refused (i : Instr)
    (_ : i.wellFormed State.reset.params.shiftOperands = true) :
    i.toRecord ≠ ⟨.ADD, .R, 1, 1, 0, 0, 1, 0⟩ := by
  intro h
  cases i <;> simp [Instr.toRecord, Instr.opcode, Instr.shamt] at h

theorem witness_RegisterFileReadsAndWrites :
    regReadAt State.reset.regs 31 = .ok 0 ∧ regReadAt State.reset.regs 32 = .error .invalidRegisterIndex := by decide

theorem witness_MemoryReturnsWhatWasStored : Memory.wf [(0, 5), (1023, 7)] = true ∧
    addrRefused Params.default 0 = false ∧ addrRefused Params.default 4095 = false ∧
    addrRefused Params.default 4092 = false ∧ addrRefused Params.default 4096 = true ∧
    addrRefused Params.default 0x80000000 = true := by decide

theorem witness_AddressesAreBoundedAndTruncated :
    ((0x80000000 : Word).msb = true ∨ Params.default.memWords ≤ (0x80000000 : Word).toNat / 4) ∧
    ((4096 : Word).msb = true ∨ Params.default.memWords ≤ (4096 : Word).toNat / 4) ∧
    (4095 : Word).msb = false ∧ (4095 : Word).toNat / 4 < Params.default.memWords ∧
    (3 < 4 ∧ 4 * 536870911 + 3 < 2 ^ 31) := by decide

theorem witness_CanonicalMemoriesReadingAlikeAreEqual : Memory.wf [(3, 1)] = true ∧
    ∀ k, memGet [(3, 1)] k = memGet [(3, 1)] k := ⟨by decide, fun _ => rfl⟩

/-- A state with ADDI's result for register 1 in Execute→Memory and another one in the snapshot. -/
def forwarding : State :=
  { State.reset with
    exmem := some ⟨.addi 1 0 2, 1, 2, 0, 1, ctrlAddi⟩
    snap := some ⟨.addi 2 0 1, 0, 1, 0, 2, ctrlAddi⟩ }

theorem witness_ForwardingPriority :
    ((1 : Reg) ≠ 0 ∧ forwarding.fwdEn = true ∧
      ∃ m, forwarding.exmem = some m ∧ m.ctrl.regWrite = true ∧ m.dest = 1 ∧ m.ctrl.memRead = false) ∧
    ((2 : Reg) ≠ 0 ∧ (∀ m, forwarding.exmem = some m → m.ctrl.regWrite = false ∨ m.dest ≠ 2 ∨ m.ctrl.memRead = true) ∧
      ∃ w, forwarding.snap = some w ∧ w.ctrl.regWrite = true ∧ w.dest = 2) ∧
    ((3 : Reg) ≠ 0 ∧ (∀ w, forwarding.snap = some w → w.ctrl.regWrite = false ∨ w.dest ≠ 3)) ∧
    ({ forwarding with fwdEn := false } : State).fwdEn = false := by
  refine ⟨⟨by decide, rfl, _, rfl, rfl, rfl, rfl⟩, ⟨by decide, ?_, _, rfl, rfl, rfl⟩, ⟨by decide, ?_⟩, rfl⟩
  · intro m h; cases h; decide
  · intro w h; cases h; decide

theorem witness_StoreDataComesFromTheSnapshotOrTheLatch :
    (forwarding.params.memStoreFwd = true ∧ forwarding.fwdEn = true ∧ (Instr.sw 2 0 4).rt ≠ 0 ∧
      ∃ w, forwarding.snap = some w ∧ w.ctrl.regWrite = true ∧ w.dest = (Instr.sw 2 0 4).rt) ∧
    (∀ w, forwarding.snap = some w → w.ctrl.regWrite = false ∨ w.dest ≠ (Instr.sw 3 0 4).rt) := by
  refine ⟨⟨rfl, rfl, by decide, _, rfl, rfl, rfl⟩, ?_⟩
  intro w h; cases h; decide

/-- T3 at the end of cycle 2: an ADD that needs a load's register stands behind the load. -/
def behindLoad : State :=
  { State.reset with
    imem := [some (.lw 2 1 0), some (.add 3 2 1)]
    pc := 2, cycle := 2
    ifid := some ⟨.add 3 2 1, 1⟩
    idex := some ⟨.lw 2 1 0, 0, 0, 0, 0, 2, ctrlLw⟩ }

theorem witness_LoadUseCheckIsExact : behindLoad.params.hazardFieldCompare = true ∧
    hazard behindLoad (.add 3 2 1) ctrlRegReg = true ∧
    (let s : State := { behindLoad with params := { Params.default with hazardFieldCompare := false } }
     s.params.hazardFieldCompare = false ∧ s.params.shiftOperands = .rtShamt ∧
     hazard s (.addi 2 0 5) ctrlAddi = false ∧ hazard behindLoad (.addi 2 0 5) ctrlAddi = true) := by decide

theorem witness_FetchStageDeliversEveryInstruction : (inStage .fetch).phase = .fetch := rfl

/-- T3 in the Decode stage of cycle 2 and of cycle 3. -/
theorem witness_DecodeStageReadsOperands : ∃ f, ({ behindLoad with phase := .decode, idex := none } : State).ifid = some f ∧
    hazard { behindLoad with phase := .decode, idex := none } (.add 3 2 1) (decodeCtrl .ADD) = false :=
  ⟨_, rfl, by decide⟩

theorem witness_DecodeStageStallsOnHazard : ∃ f, ({ behindLoad with phase := .decode } : State).ifid = some f ∧
    hazard { behindLoad with phase := .decode } (.add 3 2 1) (decodeCtrl .ADD) = true := ⟨_, rfl, by decide⟩

theorem witness_RegisterRegisterInExecute : (inExecute (.add 0 1 2) 1 2).phase = .execute ∧
    ∃ e, (inExecute (.add 0 1 2) 1 2).idex = some e ∧ e.ctrl = ctrlRegReg := ⟨rfl, _, rfl, rfl⟩

theorem witness_ShiftsInExecute : (inExecute (.sll 3 0 2 31) 0 3).phase = .execute ∧
    (∃ e, (inExecute (.sll 3 0 2 31) 0 3).idex = some e ∧ e.ctrl = ctrlRegReg) ∧
    (inExecute (.sll 3 0 2 31) 0 3).params.shiftOperands = .rtShamt ∧
    ({ inExecute (.sll 3 0 2 31) 0 3 with params := { Params.default with shiftOperands := .rsRt } } : State).params.shiftOperands
      = .rsRt := ⟨rfl, ⟨_, rfl, rfl⟩, rfl, rfl⟩

theorem witness_ImmediatesAndAddressesInExecute :
    (∃ e, (inExecute (.addi 1 1 5) 1 0).idex = some e ∧ e.ctrl = ctrlAddi) ∧
    (∃ e, (inExecute (.ori 1 1 5) 1 0).idex = some e ∧ e.ctrl = ctrlOri) ∧
    (∃ e, (inExecute (.lw 1 1 5) 1 0).idex = some e ∧ e.ctrl = ctrlLw) ∧
    (∃ e, (inExecute (.sw 1 1 5) 1 0).idex = some e ∧ e.ctrl = ctrlSw) :=
  ⟨⟨_, rfl, rfl⟩, ⟨_, rfl, rfl⟩, ⟨_, rfl, rfl⟩, _, rfl, rfl⟩

theorem witness_BeqInExecute : ∃ e, (inExecute (.beq 1 2 1) 5 5).idex = some e ∧ e.ctrl = ctrlBeq := ⟨_, rfl, rfl⟩
theorem witness_BgezInExecute : ∃ e, (inExecute (.bgez 1 2) 0 0).idex = some e ∧ e.ctrl = ctrlBgez := ⟨_, rfl, rfl⟩
theorem witness_JumpInExecute : (∃ e, (inExecute (.j 3) 0 0).idex = some e ∧ e.ctrl.jump = true) ∧
    ∃ e, (inExecute (.add 3 1 2) 0 0).idex = some e ∧ e.ctrl.jump = false := ⟨⟨_, rfl, rfl⟩, _, rfl, rfl⟩

theorem witness_MemoryStageLoadsStoresAndPasses :
    (∃ m, (inMemory (.lw 2 1 6) 4095 0).exmem = some m ∧ m.ctrl = ctrlLw ∧
      addrRefused (inMemory (.lw 2 1 6) 4095 0).params m.alu = false) ∧
    (∃ m, (inMemory (.sw 2 1 6) 0 9).exmem = some m ∧ m.ctrl = ctrlSw ∧
      addrRefused (inMemory (.sw 2 1 6) 0 9).params m.alu = false) ∧
    ∃ m, (inMemory (.j 3) 0 0).exmem = some m ∧ (Instr.j 3).opcode ∉ [Opcode.LW, .SW] ∧ m.ctrl = decodeCtrl .J :=
  ⟨⟨_, rfl, rfl, by decide⟩, ⟨_, rfl, rfl, by decide⟩, _, rfl, by decide, rfl⟩

theorem witness_MemoryStageRaisesOutOfBounds :
    (∃ m, (inMemory (.lw 2 1 0) 4096 0).exmem = some m ∧ (Instr.lw 2 1 0).opcode ∈ [Opcode.LW, .SW] ∧
      m.ctrl = decodeCtrl .LW ∧ (m.alu.msb = true ∨ Params.default.memWords ≤ m.alu.toNat / 4)) ∧
    ∃ m, (inMemory (.sw 2 0 0) 0xFFFFFFFC 1).exmem = some m ∧ (Instr.sw 2 0 0).opcode ∈ [Opcode.LW, .SW] ∧
      m.ctrl = decodeCtrl .SW ∧ (m.alu.msb = true ∨ Params.default.memWords ≤ m.alu.toNat / 4) :=
  ⟨⟨_, rfl, by decide, rfl, by decide⟩, _, rfl, by decide, rfl, by decide⟩

/-- `i` in Writeback. -/
def inWriteback (i : Instr) : State :=
  { inStage .writeback with memwb := some ⟨i, 0, 30, 100, destOf i (decodeCtrl i.opcode), decodeCtrl i.opcode⟩ }

theorem witness_WritebackCommitsTheResult : (inStage .writeback).memwb = none ∧
    (∃ w, (inWriteback (.add 0 1 2)).memwb = some w ∧ w.ctrl.regWrite = true ∧ w.dest = 0 ∧ w.ctrl = decodeCtrl .ADD) ∧
    (∃ w, (inWriteback (.lw 3 1 0)).memwb = some w ∧ w.ctrl.regWrite = true ∧ w.ctrl = decodeCtrl .LW) ∧
    ∃ w, (inWriteback (.sw 3 1 0)).memwb = some w ∧ w.ctrl.regWrite = false ∧ w.ctrl = decodeCtrl .SW :=
  ⟨rfl, ⟨_, rfl, rfl, rfl, rfl⟩, ⟨_, rfl, rfl, rfl⟩, _, rfl, rfl, rfl⟩

/-- Operands at the ends of the signed range, where the comparison of SLT decides either way. -/
theorem witness_LogicalAndComparisonResults : s32 (0x80000000 : Word) < s32 (0x7FFFFFFF : Word) ∧
    ¬ s32 (0x7FFFFFFF : Word) < s32 (0x80000000 : Word) := by decide

theorem witness_FrameOfRegisters : ∃ t, exec (.add 3 1 2) (inWriteback (.add 3 1 2)) = .next t ∧
    ∀ w, (inWriteback (.add 3 1 2)).phase = .writeback → (inWriteback (.add 3 1 2)).memwb = some w →
      w.ctrl.regWrite = true → w.dest ≠ 4 := by
  refine ⟨_, rfl, ?_⟩
  intro w _ h _; cases h; decide

theorem witness_FrameOfDataMemory : (∃ t, exec (.sw 2 0 3) (inMemory (.sw 2 0 3) 3 9) = .next t) ∧
    ∀ m, (inMemory (.sw 2 0 3) 3 9).phase = .memory → (inMemory (.sw 2 0 3) 3 9).exmem = some m →
      m.ctrl.memWrite = true → wordIndex m.alu ≠ 1 := by
  refine ⟨⟨_, rfl⟩, ?_⟩
  intro m _ h _; cases h; decide

theorem witness_FrameOfControlState :
    (∃ t, exec (.j 3) (inExecute (.j 3) 0 0) = .next t) ∧
    (∀ e, (inExecute (.j 3) 0 0).phase = .execute → (inExecute (.j 3) 0 0).idex = some e → e.ctrl.jump = true) ∧
    (∃ t, exec (.add 3 1 2) (inExecute (.add 3 1 2) 0 0) = .next t) ∧
    (∃ e, (inExecute (.add 3 1 2) 0 0).idex = some e ∧ e.ctrl.jump = false ∧ e.ctrl.branch = false) ∧
    (∃ t, exec (.lw 2 1 6) (inMemory (.lw 2 1 6) 10 0) = .next t) ∧
    (∃ t, exec (.add 3 2 1) { behindLoad with phase := .decode, idex := none } = .next t) := by
  refine ⟨⟨_, rfl⟩, ?_, ⟨_, rfl⟩, ⟨_, rfl, rfl, rfl⟩, ⟨_, rfl⟩, ⟨_, rfl⟩⟩
  intro e _ h; cases h; rfl

theorem witness_FrameOfLatches : (∃ t, exec (.beq 1 2 1) (inExecute (.beq 1 2 1) 5 5) = .next t) ∧
    (inExecute (.beq 1 2 1) 5 5).phase ≠ .fetch ∧ (inExecute (.beq 1 2 1) 5 5).phase ≠ .decode ∧
    (inExecute (.beq 1 2 1) 5 5).phase ≠ .memory ∧ (inMemory (.lw 2 1 6) 10 0).phase ≠ .execute :=
  ⟨⟨_, rfl⟩, by decide, by decide, by decide, by decide⟩

/-- One instruction in slot 0 of an otherwise empty store, with some register values. -/
def single (i : Instr) : State :=
  { State.reset with
    imem := [some i]
    regs := regWrite (regWrite State.reset.regs 1 4) 2 0x80000000
    dmem := [(2, 77)] }

theorem aloneAt_single (i : Instr) (target : Word) (h : target = 1 ∨ target = 7) : AloneAt i target (single i) := by
  rcases h with rfl | rfl
  · exact ⟨rfl, rfl, show (0 : Word).msb = false by decide, rfl, show ((0 : Word) + 1).msb = false by decide, rfl,
      by decide, rfl⟩
  · exact ⟨rfl, rfl, show (0 : Word).msb = false by decide, rfl, show ((0 : Word) + 1).msb = false by decide, rfl,
      by decide, rfl⟩

theorem witness_RegisterRegisterAlone : AloneAt (.add 3 1 2) ((single (.add 3 1 2)).pc + 1) (single (.add 3 1 2)) ∧
    AloneAt (.sub 3 1 2) ((single (.sub 3 1 2)).pc + 1) (single (.sub 3 1 2)) ∧
    AloneAt (.and 3 1 2) ((single (.and 3 1 2)).pc + 1) (single (.and 3 1 2)) ∧
    AloneAt (.or 3 1 2) ((single (.or 3 1 2)).pc + 1) (single (.or 3 1 2)) ∧
    AloneAt (.xor 3 1 2) ((single (.xor 3 1 2)).pc + 1) (single (.xor 3 1 2)) ∧
    AloneAt (.slt 0 1 2) ((single (.slt 0 1 2)).pc + 1) (single (.slt 0 1 2)) :=
  ⟨aloneAt_single _ _ (.inl rfl), aloneAt_single _ _ (.inl rfl), aloneAt_single _ _ (.inl rfl),
    aloneAt_single _ _ (.inl rfl), aloneAt_single _ _ (.inl rfl), aloneAt_single _ _ (.inl rfl)⟩

theorem witness_ShiftsAndImmediatesAlone :
    AloneAt (.sll 3 0 2 31) ((single (.sll 3 0 2 31)).pc + 1) (single (.sll 3 0 2 31)) ∧
    (single (.sll 3 0 2 31)).params.shiftOperands = .rtShamt ∧
    AloneAt (.srl 3 1 2 0) ((single (.srl 3 1 2 0)).pc + 1)
      { single (.srl 3 1 2 0) with params := { Params.default with shiftOperands := .rsRt } } ∧
    AloneAt (.addi 3 1 5) ((single (.addi 3 1 5)).pc + 1) (single (.addi 3 1 5)) ∧
    AloneAt (.ori 0 1 5) ((single (.ori 0 1 5)).pc + 1) (single (.ori 0 1 5)) :=
  ⟨aloneAt_single _ _ (.inl rfl), rfl,
    ⟨by decide, by decide, by decide, rfl, by decide, by decide, by decide, by decide⟩,
    aloneAt_single _ _ (.inl rfl), aloneAt_single _ _ (.inl rfl)⟩

theorem witness_LoadAndStoreAlone :
    (regRead (single (.lw 2 1 6)).regs 1 + 6).msb = false ∧
    (regRead (single (.lw 2 1 6)).regs 1 + 6).toNat / 4 < (single (.lw 2 1 6)).params.memWords ∧
    (regRead (single (.lw 2 1 4091)).regs 1 + 4091).toNat / 4 = 1023 ∧
    AloneAt (.lw 2 1 6) ((single (.lw 2 1 6)).pc + 1) (single (.lw 2 1 6)) ∧
    AloneAt (.sw 2 1 6) ((single (.sw 2 1 6)).pc + 1) (single (.sw 2 1 6)) :=
  ⟨by decide, by decide, by decide, aloneAt_single _ _ (.inl rfl), aloneAt_single _ _ (.inl rfl)⟩

theorem witness_TransfersAlone :
    AloneAt (.beq 1 2 6) (if regRead (single (.beq 1 2 6)).regs 1 = regRead (single (.beq 1 2 6)).regs 2
      then (single (.beq 1 2 6)).pc + 1 + 6 else (single (.beq 1 2 6)).pc + 1) (single (.beq 1 2 6)) ∧
    AloneAt (.beq 1 1 6) (if regRead (single (.beq 1 1 6)).regs 1 = regRead (single (.beq 1 1 6)).regs 1
      then (single (.beq 1 1 6)).pc + 1 + 6 else (single (.beq 1 1 6)).pc + 1) (single (.beq 1 1 6)) ∧
    AloneAt (.bgez 1 6) (if 0 ≤ s32 (regRead (single (.bgez 1 6)).regs 1)
      then (single (.bgez 1 6)).pc + 1 + 6 else (single (.bgez 1 6)).pc + 1) (single (.bgez 1 6)) ∧
    AloneAt (.bgez 2 6) (if 0 ≤ s32 (regRead (single (.bgez 2 6)).regs 2)
      then (single (.bgez 2 6)).pc + 1 + 6 else (single (.bgez 2 6)).pc + 1) (single (.bgez 2 6)) ∧
    AloneAt (.j 7) 7 (single (.j 7)) :=
  ⟨aloneAt_single _ _ (.inl (by decide)), aloneAt_single _ _ (.inr (by decide)), aloneAt_single _ _ (.inr (by decide)),
    aloneAt_single _ _ (.inl (by decide)), aloneAt_single _ _ (.inr rfl)⟩

theorem witness_StepRunsTheStagesThroughExec : behindLoad.halted = false ∧ behindLoad.fault = none ∧
    ({ State.reset with halted := true } : State).halted = true ∧
    ({ State.reset with fault := some .memoryOutOfBounds } : State).fault ≠ none := by decide

theorem witness_FirstStepRunsTheDecodedInstruction :
    (stopped (single (.j 7)) = false ∧ drained (single (.j 7)) = true ∧ (single (.j 7)).pc.msb = false ∧
      slotAt (single (.j 7)).imem (single (.j 7)).pc = some (.j 7)) ∧
    decodeWith State.reset.params.shiftOperands 0x00221820 = .ok (.add 3 1 2) := by decide

theorem pipeInv_behindLoad : PipeInv behindLoad where
  progLen := by decide
  pcLow := fun _ => by decide
  ifidSlot := fun _ h => by cases h; decide
  idexSlot := fun _ h => by cases h; decide
  exmemSlot := fun _ h => by cases h
  memwbSlot := fun _ h => by cases h
  ifidPc := fun _ h => by cases h; decide
  idexNext := fun _ h => by cases h; decide
  idexRs := fun _ h => by cases h; decide
  idexRt := fun _ h => by cases h; decide
  idexImm := fun _ h => by cases h; decide
  idexCtrl := fun _ h => by cases h; decide
  exmemCtrl := fun _ h => by cases h
  memwbCtrl := fun _ h => by cases h
  loadUse := fun _ _ _ h => by cases h
  haltedDrained := fun h => by cases h

/-- An instruction in Execute with its successor already fetched, nothing older in flight. -/
def inFlight (i : Instr) : State :=
  { State.reset with
    imem := [some i, some (.addi 1 0 1)]
    pc := 2, cycle := 2
    ifid := some ⟨.addi 1 0 1, 1⟩
    idex := some ⟨i, 0, 0, 0, i.imm, destOf i (decodeCtrl i.opcode), decodeCtrl i.opcode⟩ }

theorem pipeInv_inFlight {i : Instr} (hs : regRead State.reset.regs i.rs = 0) (ht : regRead State.reset.regs i.rt = 0) :
    PipeInv (inFlight i) where
  progLen := show 2 ≤ maxProgLen by decide
  pcLow := fun _ => show (2 : Word).msb = false by decide
  ifidSlot := fun _ h => by cases h; rfl
  idexSlot := fun _ h => by cases h; rfl
  exmemSlot := fun _ h => by cases h
  memwbSlot := fun _ h => by cases h
  ifidPc := fun _ h => by cases h; show (2 : Word) = 1 + 1; decide
  idexNext := fun _ h => by cases h; show (1 : Word) = 0 + 1; decide
  idexRs := fun _ h => by cases h; exact hs.symm
  idexRt := fun _ h => by cases h; exact ht.symm
  idexImm := fun _ h => by cases h; rfl
  idexCtrl := fun _ h => by cases h; exact ⟨rfl, rfl⟩
  exmemCtrl := fun _ h => by cases h
  memwbCtrl := fun _ h => by cases h
  loadUse := fun _ _ _ h => by cases h
  haltedDrained := fun h => by cases h

theorem steps_behindLoad : ∃ t, step behindLoad = .next t ∧ (t.stalls == 1) = true := exists_next (by decide)

theorem witness_CountersCountStepsAndHazards : PipeInv behindLoad ∧ stopped behindLoad = false ∧
    ∃ t, step behindLoad = .next t :=
  ⟨pipeInv_behindLoad, rfl, steps_behindLoad.imp fun _ h => h.1⟩

theorem witness_HaltedExactlyWhenDrained : stopped State.reset = false ∧ ∃ t, step State.reset = .next t :=
  ⟨rfl, (exists_next (p := fun t => t.halted) (by decide)).imp fun _ h => h.1⟩

theorem witness_StepKeepsProgramAndConfiguration : ∃ t, step behindLoad = .next t :=
  steps_behindLoad.imp fun _ h => h.1

theorem witness_InstructionsFlowInOrder : stopped behindLoad = false ∧ ∃ t, step behindLoad = .next t :=
  ⟨rfl, steps_behindLoad.imp fun _ h => h.1⟩

theorem witness_StallCycleHoldsFetchAndInsertsBubble : PipeInv behindLoad ∧ stopped behindLoad = false ∧
    (∃ f, behindLoad.ifid = some f ∧ hazard behindLoad f.instr (decodeCtrl f.instr.opcode) = true) ∧
    ∃ t, step behindLoad = .next t :=
  ⟨pipeInv_behindLoad, rfl, ⟨_, rfl, by decide⟩, steps_behindLoad.imp fun _ h => h.1⟩

theorem witness_NoTwoStallsInARow : ∃ t u, step behindLoad = .next t ∧ step t = .next u ∧ t.stalls ≠ behindLoad.stalls := by
  have two : ∃ u, SafeRun 2 behindLoad u ∧ (u.stalls == 1) = true := exists_next (by decide)
  obtain ⟨u, hu, _⟩ := two
  obtain ⟨t, ht, hu⟩ := safeRun_succ hu
  obtain ⟨v, hv, _⟩ := safeRun_succ hu
  obtain ⟨t', ht', hst⟩ := steps_behindLoad
  rw [ht] at ht'
  cases ht'
  exact ⟨t, v, ht, hv, by rw [eq_of_beq hst]; decide⟩

theorem witness_NoStallsWithoutHazardDetection : ({ behindLoad with hazardEn := false } : State).hazardEn = false ∧
    ∃ t, step { behindLoad with hazardEn := false } = .next t :=
  ⟨rfl, (exists_next (p := fun t => t.stalls == 0) (by decide)).imp fun _ h => h.1⟩

theorem witness_JumpFlushesOneSlot : PipeInv (inFlight (.j 0)) ∧ stopped (inFlight (.j 0)) = false ∧
    (∃ e, (inFlight (.j 0)).idex = some e ∧ e.instr = .j 0) ∧ ∃ t, step (inFlight (.j 0)) = .next t :=
  ⟨pipeInv_inFlight (by decide) (by decide), rfl, ⟨_, rfl, rfl⟩,
    (exists_next (p := fun t => t.pc == 1) (by decide)).imp fun _ h => h.1⟩

/-- An access in Memory that the capacity does not cover. -/
def outOfBounds (i : Instr) (addr : Word) : State :=
  { State.reset with exmem := some ⟨i, 0, addr, 0, destOf i (decodeCtrl i.opcode), decodeCtrl i.opcode⟩ }

theorem witness_OldestErrorIsReported :
    (∃ m, (outOfBounds (.lw 2 1 0) 4096).exmem = some m ∧ (m.ctrl.memRead = true ∨ m.ctrl.memWrite = true) ∧
      addrRefused (outOfBounds (.lw 2 1 0) 4096).params m.alu = true) ∧
    ∃ m, (outOfBounds (.sw 2 1 0) 0x80000000).exmem = some m ∧ (m.ctrl.memRead = true ∨ m.ctrl.memWrite = true) ∧
      addrRefused (outOfBounds (.sw 2 1 0) 0x80000000).params m.alu = true :=
  ⟨⟨_, rfl, by decide, by decide⟩, _, rfl, by decide, by decide⟩

/-- `BGEZ $1,-3` at index 1 in Execute, behind a store inside the bounds. -/
def behindStore : State :=
  { State.reset with
    imem := [some (.sw 2 1 0), some (.bgez 1 0xFFFFFFFD)]
    pc := 2, cycle := 3
    idex := some ⟨.bgez 1 0xFFFFFFFD, 1, 0, 0, 0xFFFFFFFD, 0, ctrlBgez⟩
    exmem := some ⟨.sw 2 1 0, 0, 0, 0, 2, ctrlSw⟩ }

theorem pipeInv_behindStore : PipeInv behindStore where
  progLen := by decide
  pcLow := fun _ => by decide
  ifidSlot := fun _ h => by cases h
  idexSlot := fun _ h => by cases h; decide
  exmemSlot := fun _ h => by cases h; decide
  memwbSlot := fun _ h => by cases h
  ifidPc := fun _ h => by cases h
  idexNext := fun _ h => by cases h; decide
  idexRs := fun _ h => by cases h; decide
  idexRt := fun _ h => by cases h; decide
  idexImm := fun _ h => by cases h; rfl
  idexCtrl := fun _ h => by cases h; exact ⟨rfl, rfl⟩
  exmemCtrl := fun _ h => by cases h; exact ⟨rfl, rfl⟩
  memwbCtrl := fun _ h => by cases h
  loadUse := fun _ _ _ h => by cases h; simp [ctrlSw]
  haltedDrained := fun h => by cases h

/-- Section 2.8, `BEQ $0,$0,-3` at index 0; and a BGEZ behind a store. -/
theorem witness_TargetBelowIndexZeroRaises :
    (PipeInv (inFlight (.beq 0 0 0xFFFFFFFD)) ∧ stopped (inFlight (.beq 0 0 0xFFFFFFFD)) = false ∧
      (inFlight (.beq 0 0 0xFFFFFFFD)).exmem = none ∧
      ∃ e, (inFlight (.beq 0 0 0xFFFFFFFD)).idex = some e ∧ e.instr = .beq 0 0 0xFFFFFFFD ∧
        (e.ipc + 1 + e.instr.imm).msb = true) ∧
    PipeInv behindStore ∧ stopped behindStore = false ∧
    (∃ m, behindStore.exmem = some m ∧ m.ctrl.memWrite = true ∧ addrRefused behindStore.params m.alu = false) ∧
    ∃ e, behindStore.idex = some e ∧ e.instr = .bgez 1 0xFFFFFFFD ∧
      0 ≤ s32 (forward { behindStore with snap := behindStore.memwb } 1 e.a) ∧ (e.ipc + 1 + e.instr.imm).msb = true :=
  ⟨⟨pipeInv_inFlight (by decide) (by decide), rfl, rfl, _, rfl, rfl, by decide⟩,
    pipeInv_behindStore, rfl, ⟨_, rfl, rfl, by decide⟩, _, rfl, rfl, by decide, by decide⟩

theorem witness_OnlyTwoErrorsAreReachable : PipeInv (inFlight (.beq 0 0 0xFFFFFFFD)) ∧
    ∃ k t, step (inFlight (.beq 0 0 0xFFFFFFFD)) = .fault (.raised k t) ∧ (k == .invalidFetchAddress) = true :=
  ⟨pipeInv_inFlight (by decide) (by decide), exists_fault (p := fun k _ => k == .invalidFetchAddress) (by decide)⟩

theorem witness_StepKeepsPipelineInvariant : PipeInv behindLoad ∧ ∃ t, step behindLoad = .next t :=
  ⟨pipeInv_behindLoad, steps_behindLoad.imp fun _ h => h.1⟩

theorem witness_StepKeepsDataForm : DataInv (single (.sw 2 1 6)) ∧ ∃ t, step (single (.sw 2 1 6)) = .next t :=
  ⟨⟨by decide, by decide, by decide⟩, (exists_next (p := fun t => t.pc == 1) (by decide)).imp fun _ h => h.1⟩

theorem witness_LoadedResetMeetsInvariants : [0x00221820, (0xFFFFFFFF : Word)].length < maxProgLen := by decide

theorem witness_CycleIsTheNextStateForm :
    (PipeInv behindLoad ∧ stopped behindLoad = false ∧ ∃ t, nextState behindLoad = .ok t) ∧
    PipeInv (inFlight (.beq 0 0 0xFFFFFFFD)) ∧ nextState (inFlight (.beq 0 0 0xFFFFFFFD)) = .error .invalidFetchAddress :=
  ⟨⟨pipeInv_behindLoad, rfl, _, rfl⟩, pipeInv_inFlight (by decide) (by decide), rfl⟩

theorem witness_StepSimulatesSequentialExecution :
    PipeInv behindLoad ∧ defaultSetting behindLoad ∧ stopped behindLoad = false ∧ (∃ a, archOf behindLoad = .ok a) ∧
    (∃ t, step behindLoad = .next t) ∧ (∃ e, behindLoad.idex = some e) ∧
    defaultSetting (single (.j 7)) ∧ (single (.j 7)).idex = none :=
  ⟨pipeInv_behindLoad, ⟨rfl, rfl, rfl⟩, rfl, ⟨_, rfl⟩, steps_behindLoad.imp fun _ h => h.1, ⟨_, rfl⟩, ⟨rfl, rfl, rfl⟩, rfl⟩

theorem runStart_single (i : Instr) : RunStart (single i) :=
  ⟨rfl, rfl, show (0 : Word).msb = false by decide, show 1 < maxProgLen by decide⟩

theorem witness_PipelineRunsEndAsSequentialOnes :
    RunStart (single (.add 3 1 2)) ∧ defaultSetting (single (.add 3 1 2)) ∧
    (∃ t, SafeRun 5 (single (.add 3 1 2)) t ∧ t.halted = true) ∧
    RunStart (single (.lw 3 2 0)) ∧
    ∃ k t, Host.Core.run Sys2Proof.core 4 (single (.lw 3 2 0)) = .fault (.raised k t) ∧ (k == .memoryOutOfBounds) = true :=
  ⟨runStart_single _, ⟨rfl, rfl, rfl⟩, exists_next (p := fun t => t.halted) (by decide), runStart_single _,
    exists_fault (p := fun k _ => k == .memoryOutOfBounds) (by decide)⟩

theorem witness_SequentialEndsAreReachedByThePipeline :
    RunStart (single (.add 3 1 2)) ∧ defaultSetting (single (.add 3 1 2)) ∧
    (∃ a, seqRun Params.default (single (.add 3 1 2)).imem 2 (archStart (single (.add 3 1 2))) = .ended a) ∧
    seqRun Params.default (single (.lw 3 2 0)).imem 1 (archStart (single (.lw 3 2 0))) = .fault .memoryOutOfBounds :=
  ⟨runStart_single _, ⟨rfl, rfl, rfl⟩, ⟨_, rfl⟩, rfl⟩

theorem witness_StraightLineProgramHaltsAfterFourMoreCycles :
    RunStart (single (.add 3 1 2)) ∧ (single (.add 3 1 2)).pc = 0 ∧
    (single (.add 3 1 2)).imem = [Instr.add 3 1 2].map some ∧
    (∀ i ∈ [Instr.add 3 1 2],
      i.opcode ∈ [Opcode.ADD, .SUB, .AND, .OR, .XOR, .SLT, .SLL, .SRL, .ADDI, .ORI]) ∧ [Instr.add 3 1 2] ≠ [] ∧
    (4 < [Instr.add 3 1 2].length + 4 ∧ ∃ t, SafeRun 4 (single (.add 3 1 2)) t) :=
  ⟨runStart_single _, rfl, rfl, by decide, by decide, by decide,
    (exists_next (p := fun t => !t.halted) (by decide)).imp fun _ h => h.1⟩

theorem witness_HostWritesOnlyBeforeTheFirstStep : fresh State.reset = true ∧ 1023 < State.reset.params.memWords ∧
    behindLoad.cycle ≠ 0 ∧ [0x00221820, (0x00000060 : Word)].length ≤ maxProgLen ∧
    slotsOfRecords State.reset.params.shiftOperands [some (Instr.toRecord (.add 3 1 2)), none] =
      some [some (.add 3 1 2), none] := by decide

theorem witness_HostWritesOnlyBeforeTheFirstStep_tooLong :
    maxProgLen < (List.replicate (maxProgLen + 1) (0 : Word)).length := by simp

theorem witness_ClockEdgeHoldsAStoppedCore :
    (∃ p : PortsIn, p.rst = false ∧ behindLoad.cycle ≠ 0 ∧ p.stepEn = false) ∧
    ∃ (p : PortsIn) (k : ErrorKind) (t : State), p.rst = false ∧ p.stepEn = true ∧
      fresh (inFlight (.beq 0 0 0xFFFFFFFD)) = false ∧ step (inFlight (.beq 0 0 0xFFFFFFFD)) = .fault (.raised k t) := by
  refine ⟨⟨⟨false, false, true, true, none, none, none, 0, 0⟩, rfl, by decide, rfl⟩, ?_⟩
  obtain ⟨k, t, h, _⟩ := witness_OnlyTwoErrorsAreReachable.2
  exact ⟨⟨false, true, true, true, none, none, none, 0, 0⟩, k, t, rfl, rfl, rfl, h⟩

/-- The outputs of R247 in the state of the load-use example, not stepped: the words of section 2.3 for `LW $2,0($1)` in
Decode and `ADD $3,$2,$1`, rs 2, rt 1, rd 3, in Fetch, and nothing in the other stages. -/
theorem test_ports_show_instruction_words :
    let out := portsOut ⟨false, false, true, true, none, none, none, 2, 1024⟩ behindLoad
    out.decode = some (0, 0x8C220000) ∧ out.fetch = some (1, 0x00411820) ∧ out.execute = none ∧ out.fault = none ∧
      out.xData = some 0 ∧ out.mData = none := by decide

/-- The fault output is three bits that tell the five kinds apart, and the read ports are not usable during a step. -/
theorem test_ports_show_fault_kind :
    ([ErrorKind.unknownOpcode, .unknownArithmeticOperation, .invalidRegisterIndex, .memoryOutOfBounds,
      .invalidFetchAddress].map faultKindCode).Nodup ∧
    (portsOut ⟨false, true, true, true, none, none, none, 2, 0⟩ { behindLoad with fault := some .memoryOutOfBounds }).xData
      = none := by decide

end Sys2Proof.Tests
end

/-! PROOFS. The register file: its reads and writes for an index of any size, and obligation O6 (10_state.md R21, R22). -/

namespace Sys2Proof.Machine

theorem regReadAt_of_lt (f : RegFile) {idx : Nat} (h : idx < 32) :
    regReadAt f idx = .ok (regRead f (BitVec.ofNat 5 idx)) := if_pos h

theorem regReadAt_of_ge (f : RegFile) {idx : Nat} (h : 32 ≤ idx) :
    regReadAt f idx = .error .invalidRegisterIndex := if_neg h.not_gt

theorem regWriteAt_of_lt (f : RegFile) {idx : Nat} (v : Word) (h : idx < 32) :
    regWriteAt f idx v = .ok (regWrite f (BitVec.ofNat 5 idx) v) := if_pos h

theorem regWriteAt_of_ge (f : RegFile) {idx : Nat} (v : Word) (h : 32 ≤ idx) :
    regWriteAt f idx v = .error .invalidRegisterIndex := if_neg h.not_gt

/-- An index below 32 fits the 5 bits of a register, so the read reaches the slot of that very number. -/
theorem regRead_ofNat (f : RegFile) {idx : Nat} (h : idx < 32) :
    regRead f (BitVec.ofNat 5 idx) = if idx = 0 then 0 else f.toList.getD idx 0 := by
  have hnat : (BitVec.ofNat 5 idx).toNat = idx := Nat.mod_eq_of_lt h
  split
  case isTrue h0 => rw [h0]; exact regRead_zero f
  case isFalse h0 =>
    have hne : BitVec.ofNat 5 idx ≠ 0 := fun e => h0 (hnat.symm.trans (congrArg BitVec.toNat e))
    rw [regRead_of_ne f hne]
    simp [hnat, h]

/-- `regRead_regWrite` with register 0 set apart by the register read, as R21 states it. -/
theorem regRead_regWrite_of_read (f : RegFile) (r q : Reg) (v : Word) :
    regRead (regWrite f r v) q = if q = 0 then 0 else if q = r then v else regRead f q := by
  split
  case isTrue hq => rw [hq, regRead_zero]
  case isFalse hq =>
    split
    case isTrue hqr => subst hqr; exact regRead_regWrite_self f v hq
    case isFalse hqr => exact regRead_regWrite_ne f v hqr

/-- Settles O6: each clause is the rule of one register file operation. -/
theorem registerFileReadsAndWrites : Obligations.RegisterFileReadsAndWrites := by
  refine ⟨regRead_regWrite_of_read, regWrite_zero, fun f idx v h => ⟨?_, regWriteAt_of_lt f v h⟩,
    fun f idx v h => ⟨regReadAt_of_ge f h, regWriteAt_of_ge f v h⟩⟩
  rw [regReadAt_of_lt f h, regRead_ofNat f h]

end Sys2Proof.Machine

/-! PROOFS. Data memory: what a store and a load answer, and obligation O7 (20_memory.md R51, R52, R59). -/

namespace Sys2Proof.Machine

theorem memWrite_of_refused {p : Params} (m : Memory) {a : Word} (v : Word) (h : addrRefused p a = true) :
    memWrite p m a v = .error .memoryOutOfBounds := if_pos h

theorem memWrite_of_not_refused {p : Params} (m : Memory) {a : Word} (v : Word) (h : addrRefused p a = false) :
    memWrite p m a v = .ok (memSet m (a.toNat / 4) v) := by
  rw [← wordIndex_eq]
  exact if_neg (ne_true_of_eq_false h)

theorem memRead_of_not_refused {p : Params} (m : Memory) {a : Word} (h : addrRefused p a = false) :
    memRead p m a = .ok (memGet m (a.toNat / 4)) := by
  rw [← wordIndex_eq]
  exact if_neg (ne_true_of_eq_false h)

/-- The word a canonical memory was written at holds the value. -/
theorem memGet_memSet_self {m : Memory} (h : m.wf = true) (k : Nat) (v : Word) : memGet (memSet m k v) k = v := by
  rw [memGet_memSet h, if_pos rfl]

/-- A load after a write of word `k`: the value for every address in that word, what it was for every other (R59). -/
theorem memRead_memSet {p : Params} {m : Memory} (hm : m.wf = true) (k : Nat) (v : Word) {b : Word}
    (hb : addrRefused p b = false) :
    memRead p (memSet m k v) b = if b.toNat / 4 = k then .ok v else memRead p m b := by
  rw [memRead_of_not_refused _ hb, memRead_of_not_refused _ hb, memGet_memSet hm]
  split <;> rfl

/-- Settles O7: a store that is not refused is `memSet` at the address's word, and each clause is a reading of it. -/
theorem memoryReturnsWhatWasStored : Obligations.MemoryReturnsWhatWasStored := by
  intro p m a v
  refine ⟨memWrite_of_refused m v, fun hm ha => ⟨memSet m (a.toNat / 4) v, memWrite_of_not_refused m v ha, ?_, ?_, ?_⟩⟩
  · exact memGet_memSet_self hm _ v
  · exact fun _ hk => memGet_memSet_ne m v hk
  · exact fun _ hb => memRead_memSet hm _ v hb

end Sys2Proof.Machine

/-! PROOFS. The arithmetic unit's logical operations and comparison, and obligation O10 (40_units.md R103, R104). -/

namespace Sys2Proof.Machine

theorem getLsbD_aluResult_and (a b : Word) (k : Nat) :
    (aluResult .and a b).getLsbD k = (a.getLsbD k && b.getLsbD k) := BitVec.getLsbD_and

theorem getLsbD_aluResult_or (a b : Word) (k : Nat) :
    (aluResult .or a b).getLsbD k = (a.getLsbD k || b.getLsbD k) := BitVec.getLsbD_or

theorem getLsbD_aluResult_xor (a b : Word) (k : Nat) :
    (aluResult .xor a b).getLsbD k = (a.getLsbD k ^^ b.getLsbD k) := BitVec.getLsbD_xor

theorem aluResult_slt_of_lt {a b : Word} (h : s32 a < s32 b) : aluResult .slt a b = 1 := if_pos h

theorem aluResult_slt_of_not_lt {a b : Word} (h : ¬ s32 a < s32 b) : aluResult .slt a b = 0 := if_neg h

/-- Settles O10: one rule for each logical operation, one for each outcome of the comparison. -/
theorem logicalAndComparisonResults : Obligations.LogicalAndComparisonResults := by
  intro a b
  refine ⟨fun k _ => ⟨?_, ?_, ?_⟩, aluResult_slt_of_lt, aluResult_slt_of_not_lt⟩
  · exact getLsbD_aluResult_and a b k
  · exact getLsbD_aluResult_or a b k
  · exact getLsbD_aluResult_xor a b k

end Sys2Proof.Machine

/-! PROOFS. The rows that several opcodes share in the two tables, and obligation O12 (40_units.md R111, R113). -/

namespace Sys2Proof.Machine

theorem decodeCtrl_regReg :
    ∀ op ∈ [Opcode.ADD, .SUB, .AND, .OR, .XOR, .SLT, .SLL, .SRL], decodeCtrl op = ctrlRegReg := by decide

theorem aluOpOf_add : ∀ op ∈ [Opcode.ADD, .ADDI, .LW, .SW], aluOpOf op = some .add := by decide

theorem aluOpOf_sub : ∀ op ∈ [Opcode.SUB, .BEQ], aluOpOf op = some .sub := by decide

theorem aluOpOf_or : ∀ op ∈ [Opcode.OR, .ORI], aluOpOf op = some .or := by decide

theorem aluOpOf_slt : ∀ op ∈ [Opcode.SLT, .BGEZ], aluOpOf op = some .slt := by decide

/-- Settles O12: a row with one opcode is an equation of the table, a shared one is its lemma. -/
theorem controlDecoderTable : Obligations.ControlDecoderTable := by
  refine ⟨decodeCtrl_regReg, ?_⟩
  refine ⟨rfl, rfl, rfl, rfl, rfl, rfl, rfl, ?_⟩ -- the control rows of ADDI, ORI, LW, SW, BEQ, BGEZ and J
  exact ⟨aluOpOf_add, aluOpOf_sub, rfl, aluOpOf_or, rfl, aluOpOf_slt, rfl, rfl⟩

end Sys2Proof.Machine

/-! PROOFS. The Writeback stage of an instruction, by what its latch holds, and obligation O28 (41_pipeline.md R135). -/

namespace Sys2Proof.Machine

theorem exec_writeback_of_none {i : Instr} {s : State} (hp : s.phase = .writeback) (h : s.memwb = none) :
    exec i s = .next s := by
  rw [exec_writeback hp, writebackStage, h]

/-- A latch that writes: the value is `wbval` of R35. -/
theorem exec_writeback_of_regWrite {i : Instr} {s : State} {w : MemWb} (hp : s.phase = .writeback)
    (h : s.memwb = some w) (hw : w.ctrl.regWrite = true) :
    exec i s = .next { s with regs := regWrite s.regs w.dest (wbval w) } := by
  rw [exec_writeback hp, writebackStage, h]
  exact congrArg _ (if_pos hw)

theorem exec_writeback_of_not_regWrite {i : Instr} {s : State} {w : MemWb} (hp : s.phase = .writeback)
    (h : s.memwb = some w) (hw : w.ctrl.regWrite = false) : exec i s = .next s := by
  rw [exec_writeback hp, writebackStage, h]
  exact congrArg _ (if_neg (ne_true_of_eq_false hw))

/-- Register 0 as the destination: whatever the flag, nothing changes (R21). -/
theorem exec_writeback_of_dest_zero {i : Instr} {s : State} {w : MemWb} (hp : s.phase = .writeback)
    (h : s.memwb = some w) (hd : w.dest = 0) : exec i s = .next s := by
  cases hw : w.ctrl.regWrite with
  | false => exact exec_writeback_of_not_regWrite hp h hw
  | true => rw [exec_writeback_of_regWrite hp h hw, hd, regWrite_zero]

theorem wbval_of_memToReg {w : MemWb} (h : w.ctrl.memToReg = true) : wbval w = w.mem := if_pos h

theorem wbval_of_not_memToReg {w : MemWb} (h : w.ctrl.memToReg = false) : wbval w = w.alu :=
  if_neg (ne_true_of_eq_false h)

/-- The ten opcodes of arithmetic and logic write a register, and not from memory (R111). -/
theorem decodeCtrl_writes_alu :
    ∀ op ∈ [Opcode.ADD, .SUB, .AND, .OR, .XOR, .SLT, .SLL, .SRL, .ADDI, .ORI],
      (decodeCtrl op).regWrite = true ∧ (decodeCtrl op).memToReg = false := by decide

/-- A store and a transfer write no register (R111). -/
theorem decodeCtrl_not_regWrite :
    ∀ op ∈ [Opcode.SW, .BEQ, .BGEZ, .J], (decodeCtrl op).regWrite = false := by decide

/-- Settles O28: the latch's flags select the rule, and an opcode's row of the control table sets the flags. -/
theorem writebackCommitsTheResult : Obligations.WritebackCommitsTheResult := by
  intro s i hp
  refine ⟨exec_writeback_of_none hp, fun w h => ⟨exec_writeback_of_regWrite hp h, ?_, fun hc => ⟨?_, ?_, ?_⟩⟩⟩
  · rintro (hw | hd)
    · exact exec_writeback_of_not_regWrite hp h hw
    · exact exec_writeback_of_dest_zero hp h hd
  · intro hop
    obtain ⟨hw, hm⟩ := decodeCtrl_writes_alu _ hop
    rw [← hc] at hw hm
    rw [exec_writeback_of_regWrite hp h hw, wbval_of_not_memToReg hm]
  · intro hop
    have hlw : w.ctrl = ctrlLw := by rw [hc, hop, decodeCtrl]
    rw [exec_writeback_of_regWrite hp h (by rw [hlw]; rfl), wbval_of_memToReg (by rw [hlw]; rfl)]
  · intro hop
    exact exec_writeback_of_not_regWrite hp h (hc ▸ decodeCtrl_not_regWrite _ hop)

end Sys2Proof.Machine

/-! PROOFS. When a core is stopped, how a cycle begins, and obligation O37 (41_pipeline.md R130, R161). -/

namespace Sys2Proof.Machine

theorem stopped_iff (s : State) : stopped s = true ↔ s.halted = true ∨ s.fault ≠ none := by
  rw [stopped, Bool.or_eq_true, Option.isSome_iff_ne_none]

theorem stopped_eq_false {s : State} (hh : s.halted = false) (hf : s.fault = none) : stopped s = false := by
  rw [stopped, hh, hf]
  rfl

/-- The first phase of a cycle with an empty Memory→Writeback latch; the snapshot R131 takes of it is empty. -/
theorem writebackPhase_beginCycle_of_none {s : State} (h : s.memwb = none) :
    writebackPhase (beginCycle s) = .next { s with cycle := s.cycle + 1, snap := none, phase := .writeback } := by
  simp only [writebackPhase, beginCycle, h]

/-- The first phase of a cycle with an occupied Memory→Writeback latch, which is the snapshot too. -/
theorem writebackPhase_beginCycle_of_some {s : State} {w : MemWb} (h : s.memwb = some w) :
    writebackPhase (beginCycle s) =
      exec w.instr { s with cycle := s.cycle + 1, snap := some w, phase := .writeback } := by
  simp only [writebackPhase, beginCycle, h]

/-- A step of a running core is the five phases and the halt check. -/
theorem step_eq_phases {s : State} (h : stopped s = false) :
    step s = andThen (writebackPhase (beginCycle s)) fun s₁ =>
      andThen (memoryPhase s₁) fun s₂ =>
      andThen (executePhase s₂) fun s₃ =>
      andThen (decodePhase s₃) fun s₄ =>
      andThen (fetchPhase s₄) fun s₅ => .next (haltCheck s₅) :=
  if_neg (ne_true_of_eq_false h)

/-- Settles O37: only the first phase needs a look at its latch, for the snapshot; the others are their definitions. -/
theorem stepRunsTheStagesThroughExec : Obligations.StepRunsTheStagesThroughExec := by
  refine ⟨fun s h => step_of_stopped ((stopped_iff s).mpr h), fun s hh hf => ?_⟩
  rw [step_eq_phases (stopped_eq_false hh hf)]
  refine congrArg₂ andThen ?_ rfl
  split
  next hw => exact writebackPhase_beginCycle_of_none hw
  next w hw => exact writebackPhase_beginCycle_of_some hw

end Sys2Proof.Machine

/-! PROOFS. The decoder: what a word that decodes is made of, and obligations O1 to O5 (30_encoding.md R70 to R81,
60_exceptions.md R244). -/

namespace Sys2Proof

theorem decodeRegs_eq_ok {mk : Reg → Reg → Reg → Instr} {w : Word} {i : Instr} (h : decodeRegs mk w = .ok i) :
    shField w = 0 ∧ i = mk (rdField w) (rsField w) (rtField w) := by
  unfold decodeRegs at h
  split at h
  case isTrue hs => cases h; exact ⟨hs, rfl⟩
  case isFalse => cases h

theorem decodeShift_eq_ok {so : ShiftOperands} {mk : Reg → Reg → Reg → BitVec 5 → Instr} {w : Word} {i : Instr}
    (h : decodeShift so mk w = .ok i) :
    i = mk (rdField w) (rsField w) (rtField w) (shField w) ∧
      (so = .rtShamt → rsField w = 0) ∧ (so = .rsRt → shField w = 0) := by
  unfold decodeShift at h
  split at h <;> split at h
  case h_1.isTrue hz => cases h; exact ⟨by rw [hz], fun _ => hz, nofun⟩
  case h_2.isTrue hz => cases h; exact ⟨by rw [hz], nofun, fun _ => hz⟩
  all_goals cases h

/-- What is to be shown of each instruction a word decodes to: it is well-formed, and the word is its encoding. -/
def DecodesTo (so : ShiftOperands) (w : Word) (i : Instr) : Prop := i.wellFormed so = true ∧ encode i = w

theorem decodesTo_wordR {so : ShiftOperands} {w : Word} {i : Instr} (hw : i.wellFormed so = true) (ho : opField w = 0)
    (he : encode i = wordR (rsField w) (rtField w) (rdField w) (shField w) (fnField w)) : DecodesTo so w i :=
  ⟨hw, he.trans (eq_wordR_of_fields ho).symm⟩

theorem decodesTo_wordI {so : ShiftOperands} {w : Word} {i : Instr} (hw : i.wellFormed so = true)
    (he : encode i = wordI (opField w) (rsField w) (rtField w) (immField w)) : DecodesTo so w i :=
  ⟨hw, he.trans (eq_wordI_of_fields w).symm⟩

theorem wellFormed_shift {so : ShiftOperands} (rd : Reg) {rs : Reg} (rt : Reg) {sh : BitVec 5}
    (hrs : so = .rtShamt → rs = 0) (hsh : so = .rsRt → sh = 0) :
    (Instr.sll rd rs rt sh).wellFormed so = true ∧ (Instr.srl rd rs rt sh).wellFormed so = true := by
  cases so
  case rtShamt => rw [hrs rfl]; exact ⟨rfl, rfl⟩
  case rsRt => rw [hsh rfl]; exact ⟨rfl, rfl⟩

theorem decodesTo_of_decodeRegs {so : ShiftOperands} {w : Word} {i : Instr} (mk : Reg → Reg → Reg → Instr)
    {fn : BitVec 6} (hwf : ∀ rd rs rt, (mk rd rs rt).wellFormed so = true)
    (henc : ∀ rd rs rt, encode (mk rd rs rt) = wordR rs rt rd 0 fn) (ho : opField w = 0)
    (hf : fnField w = fn) (h : decodeRegs mk w = .ok i) : DecodesTo so w i := by
  obtain ⟨hs, rfl⟩ := decodeRegs_eq_ok h
  exact decodesTo_wordR (hwf _ _ _) ho (by rw [henc, hs, hf])

/-- A format R word, function code by function code (R79). -/
theorem decodesTo_of_decodeFormatR {so : ShiftOperands} {w : Word} {i : Instr} (ho : opField w = 0)
    (h : decodeFormatR so w = .ok i) : DecodesTo so w i := by
  unfold decodeFormatR at h
  split_ifs at h with h1 h2 h3 h4 h5 h6 h7 h8
  · exact decodesTo_of_decodeRegs .add (fun _ _ _ => rfl) (fun _ _ _ => rfl) ho h1 h
  · exact decodesTo_of_decodeRegs .sub (fun _ _ _ => rfl) (fun _ _ _ => rfl) ho h2 h
  · exact decodesTo_of_decodeRegs .and (fun _ _ _ => rfl) (fun _ _ _ => rfl) ho h3 h
  · exact decodesTo_of_decodeRegs .or (fun _ _ _ => rfl) (fun _ _ _ => rfl) ho h4 h
  · exact decodesTo_of_decodeRegs .xor (fun _ _ _ => rfl) (fun _ _ _ => rfl) ho h5 h
  · exact decodesTo_of_decodeRegs .slt (fun _ _ _ => rfl) (fun _ _ _ => rfl) ho h6 h
  · obtain ⟨rfl, hrs, hsh⟩ := decodeShift_eq_ok h
    exact decodesTo_wordR (wellFormed_shift _ _ hrs hsh).1 ho (by rw [h7]; rfl)
  · obtain ⟨rfl, hrs, hsh⟩ := decodeShift_eq_ok h
    exact decodesTo_wordR (wellFormed_shift _ _ hrs hsh).2 ho (by rw [h8]; rfl)

/-- A word that decodes does so to a well-formed instruction, of which it is the encoding (R71, R81). -/
theorem decodesTo_of_decodeWith {so : ShiftOperands} {w : Word} {i : Instr} (h : decodeWith so w = .ok i) :
    DecodesTo so w i := by
  have imm := decide_eq_true (immFits_immField w)
  unfold decodeWith at h
  split_ifs at h with h0 h1 h2 h3 h4 h5 h6 h7 h8
  · exact decodesTo_of_decodeFormatR h0 h
  all_goals cases h
  · exact decodesTo_wordI imm (by rw [h1]; rfl)
  · exact decodesTo_wordI imm (by rw [h2]; rfl)
  · exact decodesTo_wordI imm (by rw [h3]; rfl)
  · exact decodesTo_wordI imm (by rw [h4]; rfl)
  · exact decodesTo_wordI imm (by rw [h5]; rfl)
  · exact decodesTo_wordI imm (by rw [h6, h7]; rfl)
  · exact ⟨decide_eq_true (addrFits_addrField w), (eq_wordJ_of_fields h8).symm⟩

/-- Decode of encode is the instruction, by the word form of its opcode (R81). -/
theorem decodeWith_encode {so : ShiftOperands} {i : Instr} (h : i.wellFormed so = true) :
    decodeWith so (encode i) = .ok i := by
  cases i
  case add | sub | and | or | xor | slt => simp [encode, decodeWith, decodeFormatR, decodeRegs]
  case sll | srl =>
    cases so
    all_goals
      simp only [Instr.wellFormed, beq_iff_eq] at h
      simp [encode, decodeWith, decodeFormatR, decodeShift, h]
  case addi imm | ori imm | lw imm | sw imm | beq imm | bgez imm =>
    simp [encode, decodeWith, immField_wordI _ _ _ imm (of_decide_eq_true h)]
  case j addr => simp [encode, decodeWith, addrField_wordJ addr (of_decide_eq_true h)]

/-- Settles O2: a word is put together from the fields the decoder reads, and the decoder reads the fields put together. -/
theorem encodeDecodeRoundTrip : Obligations.EncodeDecodeRoundTrip :=
  fun _ _ h => ⟨decodeWith_encode h, fun _ hw => (decodesTo_of_decodeWith hw).2.symm⟩

/-- Settles O3: well-formedness is the first half of what a decoded word is. -/
theorem decoderYieldsOnlyWellFormed : Obligations.DecoderYieldsOnlyWellFormed :=
  fun _ _ _ h => (decodesTo_of_decodeWith h).1

/-- A word is its six format R fields (R73). -/
theorem word_ext_fields {v w : Word} (hop : opField v = opField w) (hrs : rsField v = rsField w)
    (hrt : rtField v = rtField w) (hrd : rdField v = rdField w) (hsh : shField v = shField w)
    (hfn : fnField v = fnField w) : v = w := by
  have number : ∀ w : Word, w.toNat = (opField w).toNat * 2 ^ 26 + (rsField w).toNat * 2 ^ 21 +
      (rtField w).toNat * 2 ^ 16 + (rdField w).toNat * 2 ^ 11 + (shField w).toNat * 2 ^ 6 + (fnField w).toNat := by
    intro w
    have := w.isLt
    simp only [opField, rsField, rtField, rdField, shField, fnField, field_toNat]
    omega
  apply BitVec.eq_of_toNat_eq
  rw [number v, number w, hop, hrs, hrt, hrd, hsh, hfn]

/-- A masked word is compared field by field. -/
theorem and_eq_iff_fields (w m c : Word) :
    w &&& m = c ↔ opField w &&& opField m = opField c ∧ rsField w &&& rsField m = rsField c ∧
      rtField w &&& rtField m = rtField c ∧ rdField w &&& rdField m = rdField c ∧
      shField w &&& shField m = shField c ∧ fnField w &&& fnField m = fnField c := by
  have field : ∀ lo n, (w &&& m).extractLsb' lo n = w.extractLsb' lo n &&& m.extractLsb' lo n :=
    fun _ _ => BitVec.extractLsb'_and
  constructor
  · rintro rfl
    exact ⟨(field _ _).symm, (field _ _).symm, (field _ _).symm, (field _ _).symm, (field _ _).symm, (field _ _).symm⟩
  · rintro ⟨hop, hrs, hrt, hrd, hsh, hfn⟩
    exact word_ext_fields ((field _ _).trans hop) ((field _ _).trans hrs) ((field _ _).trans hrt)
      ((field _ _).trans hrd) ((field _ _).trans hsh) ((field _ _).trans hfn)

/-- What R80's mask and match of each opcode ask of the fields of a word. -/
def fieldsMatch (w : Word) : Opcode → Prop
  | .ADD => opField w = 0 ∧ shField w = 0 ∧ fnField w = 0x20
  | .SUB => opField w = 0 ∧ shField w = 0 ∧ fnField w = 0x22
  | .AND => opField w = 0 ∧ shField w = 0 ∧ fnField w = 0x24
  | .OR => opField w = 0 ∧ shField w = 0 ∧ fnField w = 0x25
  | .XOR => opField w = 0 ∧ shField w = 0 ∧ fnField w = 0x26
  | .SLT => opField w = 0 ∧ shField w = 0 ∧ fnField w = 0x2A
  | .SLL => opField w = 0 ∧ rsField w = 0 ∧ fnField w = 0x00
  | .SRL => opField w = 0 ∧ rsField w = 0 ∧ fnField w = 0x02
  | .ADDI => opField w = 0x08
  | .ORI => opField w = 0x0D
  | .LW => opField w = 0x23
  | .SW => opField w = 0x2B
  | .BEQ => opField w = 0x04
  | .BGEZ => opField w = 0x01 ∧ rtField w = 1
  | .J => opField w = 0x02

theorem masked_iff_fieldsMatch (w : Word) (op : Opcode) : w &&& specMask op = specMatch op ↔ fieldsMatch w op := by
  have ones6 : ∀ x : BitVec 6, x &&& 63#6 = x := fun x => BitVec.and_allOnes (x := x)
  have ones5 : ∀ x : BitVec 5, x &&& 31#5 = x := fun x => BitVec.and_allOnes (x := x)
  rw [and_eq_iff_fields]
  cases op <;> simp [specMask, specMatch, fieldsMatch, opField, rsField, rtField, rdField, shField, fnField, ones6, ones5]

theorem decode_eq_some {w : Word} {i : Instr} : decode w = some i ↔ decodeWith .rtShamt w = .ok i := by
  unfold decode slotOfWord
  cases decodeWith .rtShamt w <;> simp [Except.toOption]

/-- A word whose fields match an opcode decodes to an instruction of that opcode. -/
theorem decode_of_fieldsMatch {w : Word} {op : Opcode} (h : fieldsMatch w op) :
    ∃ i, decode w = some i ∧ i.opcode = op := by
  simp only [decode_eq_some]
  cases op <;> simp only [fieldsMatch] at h <;>
    simp [decodeWith, decodeFormatR, decodeRegs, decodeShift, h, Instr.opcode]

/-- An encoding's fields match its opcode. -/
theorem fieldsMatch_encode {i : Instr} (h : i.wellFormed .rtShamt = true) : fieldsMatch (encode i) i.opcode := by
  cases i
  case sll | srl =>
    simp only [Instr.wellFormed, beq_iff_eq] at h
    simp [encode, fieldsMatch, Instr.opcode, h]
  all_goals simp [encode, fieldsMatch, Instr.opcode]

theorem decode_iff_fieldsMatch (w : Word) (op : Opcode) :
    (∃ i, decode w = some i ∧ i.opcode = op) ↔ fieldsMatch w op := by
  constructor
  · rintro ⟨i, hi, rfl⟩
    obtain ⟨hwf, rfl⟩ := decodesTo_of_decodeWith (decode_eq_some.mp hi)
    exact fieldsMatch_encode hwf
  · exact decode_of_fieldsMatch

/-- Settles O4: both sides say the same of the word's fields, and a word decodes to one instruction at most. -/
theorem wordsMatchOneMask : Obligations.WordsMatchOneMask := by
  refine ⟨fun w op => (decode_iff_fieldsMatch w op).trans (masked_iff_fieldsMatch w op).symm, fun w op op' h h' => ?_⟩
  obtain ⟨i, hi, rfl⟩ := decode_of_fieldsMatch ((masked_iff_fieldsMatch w op).mp h)
  obtain ⟨j, hj, rfl⟩ := decode_of_fieldsMatch ((masked_iff_fieldsMatch w op').mp h')
  rw [hi] at hj
  cases hj
  rfl

theorem truncate_toRecord (i : Instr) : i.toRecord.truncate = i := by
  cases i
  case add => exact Laws.RecordFields.add ..
  case sub => exact Laws.RecordFields.sub ..
  case and => exact Laws.RecordFields.and ..
  case or => exact Laws.RecordFields.or ..
  case xor => exact Laws.RecordFields.xor ..
  case slt => exact Laws.RecordFields.slt ..
  case sll => exact Laws.RecordFields.sll ..
  case srl => exact Laws.RecordFields.srl ..
  case addi => exact Laws.RecordFields.addi ..
  case ori => exact Laws.RecordFields.ori ..
  case lw => exact Laws.RecordFields.lw ..
  case sw => exact Laws.RecordFields.sw ..
  case beq => exact Laws.RecordFields.beq ..
  case bgez => exact Laws.RecordFields.bgez ..
  case j => exact Laws.RecordFields.j ..

theorem recordInstr_eq_some_iff {so : ShiftOperands} {r : Record} {i : Instr} :
    recordInstr so r = some i ↔ i.wellFormed so = true ∧ i.toRecord = r := by
  simp only [recordInstr, Option.ite_none_right_eq_some]
  constructor
  · rintro ⟨hr, h⟩
    cases h
    exact hr
  · rintro ⟨hwf, rfl⟩
    rw [truncate_toRecord]
    exact ⟨⟨hwf, rfl⟩, rfl⟩

/-- Settles O1: each word is evaluated. -/
theorem specWordsDecode : Obligations.SpecWordsDecode := by
  refine ⟨?_, ?_, ?_, ?_, ?_, ?_, ?_, ?_, ?_, ?_, ?_, ?_⟩ <;> decide

end Sys2Proof

namespace Sys2Proof.Machine

theorem loadRecords_eq_of_slots {s : State} {rs : List (Option Record)} {im : Store} (hf : fresh s = true)
    (h : slotsOfRecords s.params.shiftOperands rs = some im) :
    loadRecords rs s = if im.length ≤ maxProgLen then .next { s with imem := im } else .refused .programTooLong := by
  unfold loadRecords
  rw [h]
  exact installStore_of_fresh hf im

/-- Settles O5: the loader of records is `recordInstr` on each record, then the loader of slots. -/
theorem loaderTakesWellFormedRecords : Obligations.LoaderTakesWellFormedRecords := by
  refine ⟨fun so r i => recordInstr_eq_some_iff, fun s slots hf hl hwf => ?_, fun s rs r hr hno => ?_⟩
  · have hs := slotsOfRecords_map_toRecord fun i hi => recordInstr_eq_some_iff.mpr ⟨hwf i hi, rfl⟩
    rw [loadRecords_eq_of_slots hf hs, if_pos hl]
  · have hnone : recordInstr s.params.shiftOperands r = none := by
      rw [Option.eq_none_iff_forall_ne_some]
      intro i hi
      obtain ⟨hwf, hi⟩ := recordInstr_eq_some_iff.mp hi
      exact hno i hwf hi
    unfold loadRecords
    rw [slotsOfRecords_eq_none hnone hr]

end Sys2Proof.Machine

/-! PROOFS. What a cycle does, piece by piece, for the proofs over steps: the slots Fetch reads, the latches and the front
end that a cycle leaves (41_pipeline.md R130, R166). -/

namespace Sys2Proof.Machine

/-! Fetching at an index. -/

theorem slotAt_msb {im : Store} {k : Word} {i : Instr} (hl : im.length ≤ maxProgLen) (h : slotAt im k = some i) :
    k.msb = false := by
  have hk := lt_length_of_slotAt h
  have hl : im.length ≤ 2 ^ 31 := hl
  rw [BitVec.msb_eq_false_iff_two_mul_lt]
  omega

theorem fetchAt_of_slot {im : Store} {k : Word} {i : Instr} (h : slotAt im k = some i) : fetchAt im k = some ⟨i, k⟩ := by
  rw [fetchAt, h]
  rfl

theorem fetchAt_of_absent {im : Store} {k : Word} (h : slotAt im k = none) : fetchAt im k = none := by
  rw [fetchAt, h]
  rfl

theorem pcAfterFetch_of_slot {im : Store} {k : Word} {i : Instr} (h : slotAt im k = some i) :
    pcAfterFetch im k = k + 1 := by
  rw [pcAfterFetch, h]
  rfl

theorem pcAfterFetch_of_absent {im : Store} {k : Word} (h : slotAt im k = none) : pcAfterFetch im k = k := by
  rw [pcAfterFetch, h]
  rfl

/-- A fetch that delivers has read its own index, and `pc` goes one past it. -/
theorem fetchAt_eq_some {im : Store} {k : Word} {f : IfId} (h : fetchAt im k = some f) :
    f.ipc = k ∧ slotAt im k = some f.instr ∧ pcAfterFetch im k = k + 1 := by
  unfold fetchAt at h
  rw [Option.map_eq_some_iff] at h
  obtain ⟨i, hi, rfl⟩ := h
  exact ⟨rfl, hi, pcAfterFetch_of_slot hi⟩

/-- A fetch that delivers nothing leaves `pc`. -/
theorem fetchAt_eq_none {im : Store} {k : Word} (h : fetchAt im k = none) :
    slotAt im k = none ∧ pcAfterFetch im k = k := by
  have : slotAt im k = none := by
    unfold fetchAt at h
    simpa using h
  exact ⟨this, pcAfterFetch_of_absent this⟩

/-- In a program shorter than 2^31 slots no fetch takes `pc` to bit 31. -/
theorem pcAfterFetch_msb {im : Store} {k : Word} (hl : im.length < maxProgLen) (hk : k.msb = false) :
    (pcAfterFetch im k).msb = false := by
  cases h : slotAt im k with
  | none => rw [pcAfterFetch_of_absent h, hk]
  | some i =>
    have hk := lt_length_of_slotAt h
    have hl : im.length < 2 ^ 31 := hl
    rw [pcAfterFetch_of_slot h, BitVec.msb_eq_false_iff_two_mul_lt, BitVec.toNat_add,
      show (1 : Word).toNat = 1 from rfl]
    omega

/-! The Memory and the Execute stage. -/

/-- Memory goes on: an empty latch empties the next one, an occupied one passes on with what it loaded and stored. -/
theorem memoryOut_eq_ok {s : State} {mw : Option MemWb} {d : Memory} (h : memoryOut s = .ok (mw, d)) :
    (s.exmem = none ∧ mw = none ∧ d = s.dmem) ∨
    (∃ m v, s.exmem = some m ∧ loadedWord m s = .ok v ∧ storedMemory m.instr m s = .ok d ∧
      mw = some ⟨m.instr, m.ipc, m.alu, v, m.dest, m.ctrl⟩) := by
  unfold memoryOut at h
  cases hm : s.exmem with
  | none =>
    rw [hm] at h
    cases h
    exact .inl ⟨rfl, rfl, rfl⟩
  | some m =>
    rw [hm] at h
    cases hl : loadedWord m s <;> cases hs : storedMemory m.instr m s <;> simp only [hl, hs] at h <;> cases h
    exact .inr ⟨m, _, rfl, hl, hs, rfl⟩

/-- Memory stops: an access at a refused address, which is the one error of R141 and R142. -/
theorem memoryOut_eq_error {s : State} {k : ErrorKind} (h : memoryOut s = .error k) :
    k = .memoryOutOfBounds ∧ ∃ m, s.exmem = some m ∧ (m.ctrl.memRead = true ∨ m.ctrl.memWrite = true) ∧
      addrRefused s.params m.alu = true := by
  unfold memoryOut at h
  cases hm : s.exmem with
  | none => rw [hm] at h; cases h
  | some m =>
    rw [hm] at h
    cases hl : loadedWord m s with
    | error k' =>
      obtain ⟨hr, ha, rfl⟩ := loadedWord_error hl
      simp only [hl] at h
      cases h
      exact ⟨rfl, m, rfl, .inl hr, ha⟩
    | ok v =>
      cases hs : storedMemory m.instr m s with
      | ok d => simp only [hl, hs] at h; cases h
      | error k' =>
        obtain ⟨hw, ha, rfl⟩ := storedMemory_error hs
        simp only [hl, hs] at h
        cases h
        exact ⟨rfl, m, rfl, .inr hw, ha⟩

/-- An access at a refused address stops Memory. -/
theorem memoryOut_of_refused {s : State} {m : ExMem} (hm : s.exmem = some m)
    (hc : m.ctrl.memRead = true ∨ m.ctrl.memWrite = true) (ha : addrRefused s.params m.alu = true) :
    memoryOut s = .error .memoryOutOfBounds := by
  cases h : memoryOut s with
  | error k => rw [(memoryOut_eq_error h).1]
  | ok out =>
    obtain ⟨mw, d⟩ := out
    rcases memoryOut_eq_ok h with ⟨hn, _⟩ | ⟨m', v, hm', hl, hs, _⟩
    · rw [hm] at hn; cases hn
    · rw [hm] at hm'
      cases hm'
      rcases hc with hc | hc
      · simp [loadedWord, hc, memRead, ha] at hl
      · simp [storedMemory, hc, memWrite, ha] at hs

/-- An empty Execute→Memory latch never stops Memory. -/
theorem memoryOut_of_none {s : State} (h : s.exmem = none) : memoryOut s = .ok (none, s.dmem) := by
  rw [memoryOut, h]

/-- An empty Decode→Execute latch leaves the flag and takes no transfer. -/
theorem executeOut_of_none {s : State} (h : s.idex = none) : executeOut s = some ⟨none, s.zf, none⟩ := by
  rw [executeOut, h]

/-- Execute goes on: the latch passes on with a result, and a transfer is resolved with the flag it leaves. -/
theorem executeOut_eq_some {s : State} {x : ExecuteOut} (h : executeOut s = some x) :
    (s.idex = none ∧ x = ⟨none, s.zf, none⟩) ∨
    (∃ e res, s.idex = some e ∧
      x.exmem = some ⟨e.instr, e.ipc, res, forward s e.instr.rt e.b, e.dest, e.ctrl⟩ ∧
      x.target = resolve e.instr e.ctrl (forward s e.instr.rs e.a) e.ipc e.imm x.zf) := by
  cases he : s.idex with
  | none =>
    rw [executeOut_of_none he] at h
    cases h
    exact .inl ⟨rfl, rfl⟩
  | some e =>
    simp only [executeOut, he, Option.map_eq_some_iff] at h
    obtain ⟨r, _, rfl⟩ := h
    exact .inr ⟨e, r.1, rfl, rfl, rfl⟩

/-- J is the one opcode without an arithmetic operation, and its row has the jump flag (R111, R113). -/
theorem exists_aluOpOf : ∀ op : Opcode, (decodeCtrl op).jump = true ∨ ∃ sel, aluOpOf op = some sel := by
  intro op
  cases op
  case J => exact .inl rfl
  all_goals exact .inr ⟨_, rfl⟩

/-- With its own control row an instruction never stops Execute. -/
theorem executeOut_isSome {s : State} (h : ∀ e, s.idex = some e → e.ctrl = decodeCtrl e.instr.opcode) :
    ∃ x, executeOut s = some x := by
  cases he : s.idex with
  | none => exact ⟨_, executeOut_of_none he⟩
  | some e =>
    have hc := h e he
    rcases exists_aluOpOf e.instr.opcode with hj | ⟨sel, hsel⟩
    · rw [← hc] at hj
      simp [executeOut, he, hj]
    · cases hj : e.ctrl.jump <;> simp [executeOut, he, hj, hsel]

/-! The front end: what Decode and Fetch find after Execute. -/

/-- The four ways through the front end: a transfer is taken, nothing is to be decoded, Decode stalls, Decode delivers. -/
theorem afterDecode_cases (s : State) (target : Option Word) :
    (∃ t, target = some t ∧ afterDecode s (afterExecute s target) = (none, t, s.stalls)) ∨
    (target = none ∧ s.ifid = none ∧ afterDecode s (afterExecute s target) = (none, s.pc, s.stalls)) ∨
    (∃ f, target = none ∧ s.ifid = some f ∧ hazard s f.instr (decodeCtrl f.instr.opcode) = true ∧
      afterDecode s (afterExecute s target) = (none, s.pc - 1, s.stalls + 1)) ∨
    (∃ f, target = none ∧ s.ifid = some f ∧ hazard s f.instr (decodeCtrl f.instr.opcode) = false ∧
      afterDecode s (afterExecute s target) =
        (some (decodeOf f (completeMemWb s.memwb s.regs)), s.pc, s.stalls)) := by
  cases target with
  | some t => exact .inl ⟨t, rfl, rfl⟩
  | none =>
    right
    cases hf : s.ifid with
    | none => exact .inl ⟨rfl, rfl, by simp [afterExecute, afterDecode, hf]⟩
    | some f =>
      right
      cases hz : hazard s f.instr (decodeCtrl f.instr.opcode)
      · exact .inr ⟨f, rfl, rfl, hz, by simp [afterExecute, afterDecode, hf, hz]⟩
      · exact .inl ⟨f, rfl, rfl, hz, by simp [afterExecute, afterDecode, hf, hz]⟩

/-- Only an instruction that Decode delivered stands in the Decode→Execute latch after a cycle. -/
theorem afterDecode_eq_some {s : State} {target : Option Word} {e : IdEx}
    (h : (afterDecode s (afterExecute s target)).1 = some e) :
    ∃ f, target = none ∧ s.ifid = some f ∧ hazard s f.instr (decodeCtrl f.instr.opcode) = false ∧
      e = decodeOf f (completeMemWb s.memwb s.regs) ∧ (afterDecode s (afterExecute s target)).2.1 = s.pc := by
  rcases afterDecode_cases s target with ⟨t, _, hd⟩ | ⟨_, _, hd⟩ | ⟨f, _, _, _, hd⟩ | ⟨f, ht, hf, hz, hd⟩
  · rw [hd] at h; cases h
  · rw [hd] at h; cases h
  · rw [hd] at h; cases h
  · rw [hd] at h ⊢
    cases h
    exact ⟨f, ht, hf, hz, rfl, rfl⟩

/-- A stall goes back to the index of the instruction it holds, and fetches that instruction again (R153, R165 (b)). -/
theorem PipeInv.refetch {s : State} (h : PipeInv s) {f : IfId} (hf : s.ifid = some f) :
    s.pc - 1 = f.ipc ∧ f.ipc.msb = false ∧ fetchAt s.imem f.ipc = some f ∧ pcAfterFetch s.imem f.ipc = s.pc := by
  have hpc := h.ifidPc f hf
  have hslot := h.ifidSlot f hf
  refine ⟨?_, slotAt_msb h.progLen hslot, fetchAt_of_slot hslot, ?_⟩
  · rw [hpc, BitVec.add_sub_cancel]
  · rw [pcAfterFetch_of_slot hslot, hpc]

end Sys2Proof.Machine

/-! PROOFS. The next-state form of 41_pipeline.md R166, and obligation O54. -/

namespace Sys2Proof.Machine

/-- From a state of the invariant the front end of R166 is that of the cycle: a stall's second fetch delivers what the latch
held. -/
theorem frontEnd_eq {s : State} (h : PipeInv s) (target : Option Word) :
    frontEnd s target (completeMemWb s.memwb s.regs) =
      let dec := afterDecode s (afterExecute s target)
      if dec.2.1.msb then none
      else some (fetchAt s.imem dec.2.1, dec.1, pcAfterFetch s.imem dec.2.1, dec.2.2) := by
  rcases afterDecode_cases s target with ⟨t, rfl, hd⟩ | ⟨rfl, hf, hd⟩ | ⟨f, rfl, hf, hz, hd⟩ | ⟨f, rfl, hf, hz, hd⟩
  · rw [hd]
    rfl
  · simp [hd, frontEnd, hf]
  · obtain ⟨hback, hlow, hfetch, hpc⟩ := h.refetch hf
    simp only [hd, frontEnd, hf, hz, hback, hlow, hfetch, hpc, if_true, Bool.false_eq_true, if_false]
  · simp [hd, frontEnd, hf, hz]

/-- The next-state form as the pieces of a cycle. -/
theorem nextState_eq {s : State} (h : PipeInv s) :
    nextState s = match memoryOut { s with snap := s.memwb } with
      | .error k => .error k
      | .ok (mw, d) => match executeOut { s with snap := s.memwb } with
        | none => .error .unknownOpcode
        | some x =>
          let dec := afterDecode s (afterExecute s x.target)
          if dec.2.1.msb then .error .invalidFetchAddress else .ok (cycleEnd s mw d x dec) := by
  have front := fun x : ExecuteOut => frontEnd_eq h x.target
  unfold nextState
  cases hw : s.memwb
  all_goals
    simp only [hw, completeMemWb] at front ⊢
    generalize memoryOut _ = mem
    generalize executeOut _ = exe
    rcases mem with k | out
    · rfl
    rcases exe with _ | x
    · rfl
    simp only [front]
    cases (afterDecode s (afterExecute s x.target)).2.1.msb
    · simp only [Bool.false_eq_true, if_false, cycleEnd, hw, completeMemWb]
    · simp only [if_true]

/-- Settles O54: the step and the next-state form are the same pieces, stopping at the same places. -/
theorem cycleIsTheNextStateForm : Obligations.CycleIsTheNextStateForm := by
  intro s hs hr
  rw [nextState_eq hs, step_eq hr]
  generalize memoryOut _ = mem
  generalize executeOut _ = exe
  rcases mem with k | ⟨mw, d⟩
  · simp [raise]
  rcases exe with _ | x
  · simp [raise]
  cases h : (afterDecode s (afterExecute s x.target)).2.1.msb
  · simp [h]
  · simp [h, raise]

end Sys2Proof.Machine

/-! PROOFS. The pipeline invariant is kept by every step: obligation O51 (41_pipeline.md R165). -/

namespace Sys2Proof.Machine

/-- What a cycle leaves in the Execute→Memory latch is the instruction of the Decode→Execute latch, with its row. -/
theorem exmem_of_executeOut {s : State} {x : ExecuteOut} {m : ExMem} (hx : executeOut s = some x)
    (hm : x.exmem = some m) :
    ∃ e, s.idex = some e ∧ m.instr = e.instr ∧ m.ipc = e.ipc ∧ m.dest = e.dest ∧ m.ctrl = e.ctrl := by
  rcases executeOut_eq_some hx with ⟨_, rfl⟩ | ⟨e, res, he, hxm, _⟩
  · cases hm
  · rw [hxm] at hm
    cases hm
    exact ⟨e, he, rfl, rfl, rfl, rfl⟩

/-- What a cycle leaves in the Memory→Writeback latch is the instruction of the Execute→Memory latch, with its row. -/
theorem memwb_of_memoryOut {s : State} {mw : Option MemWb} {d : Memory} {w : MemWb} (hm : memoryOut s = .ok (mw, d))
    (hw : mw = some w) :
    ∃ m, s.exmem = some m ∧ w.instr = m.instr ∧ w.ipc = m.ipc ∧ w.dest = m.dest ∧ w.ctrl = m.ctrl := by
  rcases memoryOut_eq_ok hm with ⟨_, rfl, _⟩ | ⟨m, v, he, _, _, rfl⟩
  · cases hw
  · cases hw
    exact ⟨m, he, rfl, rfl, rfl, rfl⟩

/-- The load-use check of Decode: where it found no hazard, no load that goes on to Memory writes a compared register. -/
theorem not_loadUse_of_hazard_false {s : State} {i : Instr} {c : Ctrl} {e : IdEx} (hen : s.hazardEn = true)
    (he : s.idex = some e) (h : hazard s i c = false) :
    ¬ (e.ctrl.memRead = true ∧ e.dest ≠ 0 ∧ comparesWith s.params i c e.dest = true) := by
  rintro ⟨hr, hd, hc⟩
  simp [hazard, hen, he, hr, hc] at h
  exact hd h

/-- The invariant at the end of a cycle that meets no error. -/
theorem pipeInv_cycleEnd {s : State} (h : PipeInv s) (hrun : s.halted = false) {mw : Option MemWb} {d : Memory}
    {x : ExecuteOut} (hm : memoryOut { s with snap := s.memwb } = .ok (mw, d))
    (hx : executeOut { s with snap := s.memwb } = some x)
    (hp : (afterDecode s (afterExecute s x.target)).2.1.msb = false) :
    PipeInv (cycleEnd s mw d x (afterDecode s (afterExecute s x.target))) where
  progLen := h.progLen
  pcLow hl := pcAfterFetch_msb hl hp
  ifidSlot f hf := by
    obtain ⟨hk, hslot, _⟩ := fetchAt_eq_some hf
    rw [hk]
    exact hslot
  idexSlot e he := by
    obtain ⟨f, _, hf, _, rfl, _⟩ := afterDecode_eq_some he
    exact h.ifidSlot f hf
  exmemSlot m hxm := by
    obtain ⟨e, he, hi, hk, _, _⟩ := exmem_of_executeOut hx hxm
    rw [hi, hk]
    exact h.idexSlot e he
  memwbSlot w hw := by
    obtain ⟨m, he, hi, hk, _, _⟩ := memwb_of_memoryOut hm hw
    rw [hi, hk]
    exact h.exmemSlot m he
  ifidPc f hf := by
    obtain ⟨hk, _, hpc⟩ := fetchAt_eq_some hf
    rw [hk]
    exact hpc
  idexNext e he := by
    obtain ⟨f, _, hf, _, rfl, hk⟩ := afterDecode_eq_some he
    rw [← show s.pc = (decodeOf f (completeMemWb s.memwb s.regs)).ipc + 1 from h.ifidPc f hf, ← hk]
    split
    case h_1 g hg => exact (fetchAt_eq_some hg).1
    case h_2 hg => exact (fetchAt_eq_none hg).2
  idexRs e he := by
    obtain ⟨f, _, _, _, rfl, _⟩ := afterDecode_eq_some he
    rfl
  idexRt e he := by
    obtain ⟨f, _, _, _, rfl, _⟩ := afterDecode_eq_some he
    rfl
  idexImm e he := by
    obtain ⟨f, _, _, _, rfl, _⟩ := afterDecode_eq_some he
    rfl
  idexCtrl e he := by
    obtain ⟨f, _, _, _, rfl, _⟩ := afterDecode_eq_some he
    exact ⟨rfl, rfl⟩
  exmemCtrl m hxm := by
    obtain ⟨e, he, hi, _, hd, hc⟩ := exmem_of_executeOut hx hxm
    rw [hi, hd, hc]
    exact h.idexCtrl e he
  memwbCtrl w hw := by
    obtain ⟨m, he, hi, _, hd, hc⟩ := memwb_of_memoryOut hm hw
    rw [hi, hd, hc]
    exact h.exmemCtrl m he
  loadUse hen m e hxm he := by
    obtain ⟨e₀, he₀, _, _, hd, hc⟩ := exmem_of_executeOut hx hxm
    obtain ⟨f, _, _, hz, rfl, _⟩ := afterDecode_eq_some he
    rw [hd, hc]
    exact not_loadUse_of_hazard_false (s := s) hen he₀ hz
  haltedDrained hh := by
    simpa [cycleEnd, hrun, drained] using hh

theorem halted_of_running {s : State} (h : stopped s = false) : s.halted = false ∧ s.fault = none := by
  simpa [stopped] using h

/-- Settles O51: a stopped core does not change, and a running one reaches the end of its cycle. -/
theorem stepKeepsPipelineInvariant : Obligations.StepKeepsPipelineInvariant := by
  intro s t hs ht
  cases hr : stopped s
  case true =>
    rw [step_of_stopped hr] at ht
    cases ht
    exact hs
  case false =>
    obtain ⟨mw, d, x, hm, hx, hp, rfl⟩ := step_next_parts hr ht
    exact pipeInv_cycleEnd hs (halted_of_running hr).1 hm hx hp

end Sys2Proof.Machine

/-! PROOFS. A step answers a next state or an error: obligation O39 (60_exceptions.md R220). -/

namespace Sys2Proof.Machine

theorem step_next_or_fault (s : State) : (∃ t, step s = .next t) ∨ ∃ k t, step s = .fault (.raised k t) := by
  cases hr : stopped s
  case true => exact .inl ⟨s, step_of_stopped hr⟩
  case false =>
    rw [step_eq hr]
    cases memoryOut { s with snap := s.memwb } with
    | error k => exact .inr ⟨k, _, rfl⟩
    | ok out =>
      cases executeOut { s with snap := s.memwb } with
      | none => exact .inr ⟨_, _, rfl⟩
      | some x =>
        dsimp only
        split
        · exact .inr ⟨_, _, rfl⟩
        · exact .inl ⟨_, rfl⟩

/-- Settles O39: a refusal is neither of the two answers of a step. -/
theorem noStepIsRefused : Obligations.NoStepIsRefused := by
  intro s r hr
  rcases step_next_or_fault s with ⟨t, ht⟩ | ⟨k, t, ht⟩
  · rw [ht] at hr; cases hr
  · rw [ht] at hr; cases hr

end Sys2Proof.Machine

/-! PROOFS. The architectural effect of an instruction is what its Execute and Memory stages compute: the arithmetic unit on
the instruction's own row, the operands it reads, and the completion of its latch (40_units.md, 42_arith_logic.md to
44_control_transfer.md). -/

namespace Sys2Proof.Machine

theorem beq_zero_sub (a b : Word) : (a - b == 0) = (a == b) := by
  rw [Bool.eq_iff_iff, beq_iff_eq, beq_iff_eq]
  exact ⟨fun h => BitVec.sub_eq_iff_eq_add.mp h |>.trans (BitVec.zero_add b), fun h => h ▸ BitVec.sub_self a⟩

theorem shiftCount_eq (b : Word) : shiftCount b = b.toNat % 32 := by
  rw [shiftCount, field_toNat]
  omega

theorem shiftCount_setWidth (sh : BitVec 5) : shiftCount (sh.setWidth 32) = sh.toNat := by
  have := sh.isLt
  rw [shiftCount_eq, BitVec.toNat_setWidth]
  omega

/-- The result and the zero flag of an instruction with its own row, for the forwarded operands (R147, R148, R115). -/
def unitOut (so : ShiftOperands) (i : Instr) (zf : Bool) (fa fb : Word) : Word × Bool :=
  match aluOpOf i.opcode with
  | none => (0, zf)
  | some op =>
    let o := operands so i (decodeCtrl i.opcode) fa fb i.imm
    (aluResult op o.1 o.2, zeroFlag (aluResult op o.1 o.2))

/-- Where an instruction with its own row goes on to (R149, R157). -/
def unitTarget (so : ShiftOperands) (i : Instr) (ipc : Word) (zf : Bool) (fa fb : Word) : Option Word :=
  resolve i (decodeCtrl i.opcode) fa ipc i.imm (unitOut so i zf fa fb).2

/-! What the unit answers and where it sends each instruction. -/

section UnitRules

variable (so : ShiftOperands) (rd rs rt : Reg) (sh : BitVec 5) (imm addr ipc : Word) (zf : Bool) (fa fb : Word)

@[simp] theorem unitOut_add : unitOut so (.add rd rs rt) zf fa fb = (fa + fb, fa + fb == 0) := rfl
@[simp] theorem unitOut_sub : unitOut so (.sub rd rs rt) zf fa fb = (fa - fb, fa - fb == 0) := rfl
@[simp] theorem unitOut_and : unitOut so (.and rd rs rt) zf fa fb = (fa &&& fb, fa &&& fb == 0) := rfl
@[simp] theorem unitOut_or : unitOut so (.or rd rs rt) zf fa fb = (fa ||| fb, fa ||| fb == 0) := rfl
@[simp] theorem unitOut_xor : unitOut so (.xor rd rs rt) zf fa fb = (fa ^^^ fb, fa ^^^ fb == 0) := rfl
@[simp] theorem unitOut_slt : unitOut so (.slt rd rs rt) zf fa fb =
    (if s32 fa < s32 fb then 1 else 0, (if s32 fa < s32 fb then (1 : Word) else 0) == 0) := rfl

@[simp] theorem unitOut_sll_rtShamt :
    unitOut .rtShamt (.sll rd rs rt sh) zf fa fb = (fb <<< sh.toNat, fb <<< sh.toNat == 0) := by
  rw [← shiftCount_setWidth sh]
  rfl

@[simp] theorem unitOut_sll_rsRt :
    unitOut .rsRt (.sll rd rs rt sh) zf fa fb = (fa <<< (fb.toNat % 32), fa <<< (fb.toNat % 32) == 0) := by
  rw [← shiftCount_eq]
  rfl

@[simp] theorem unitOut_srl_rtShamt :
    unitOut .rtShamt (.srl rd rs rt sh) zf fa fb = (fb >>> sh.toNat, fb >>> sh.toNat == 0) := by
  rw [← shiftCount_setWidth sh]
  rfl

@[simp] theorem unitOut_srl_rsRt :
    unitOut .rsRt (.srl rd rs rt sh) zf fa fb = (fa >>> (fb.toNat % 32), fa >>> (fb.toNat % 32) == 0) := by
  rw [← shiftCount_eq]
  rfl

@[simp] theorem unitOut_addi : unitOut so (.addi rt rs imm) zf fa fb = (fa + imm, fa + imm == 0) := rfl
@[simp] theorem unitOut_ori : unitOut so (.ori rt rs imm) zf fa fb = (fa ||| imm, fa ||| imm == 0) := rfl
@[simp] theorem unitOut_lw : unitOut so (.lw rt rs imm) zf fa fb = (fa + imm, fa + imm == 0) := rfl
@[simp] theorem unitOut_sw : unitOut so (.sw rt rs imm) zf fa fb = (fa + imm, fa + imm == 0) := rfl

@[simp] theorem unitOut_beq : unitOut so (.beq rs rt imm) zf fa fb = (fa - fb, fa == fb) := by
  rw [← beq_zero_sub]
  rfl

@[simp] theorem unitOut_bgez : unitOut so (.bgez rs imm) zf fa fb =
    (if s32 fa < s32 fb then 1 else 0, (if s32 fa < s32 fb then (1 : Word) else 0) == 0) := rfl

@[simp] theorem unitOut_j : unitOut so (.j addr) zf fa fb = (0, zf) := rfl

/-- An instruction that is no transfer goes on to the next index. -/
theorem unitTarget_of_no_transfer {i : Instr} (hj : (decodeCtrl i.opcode).jump = false)
    (hb : (decodeCtrl i.opcode).branch = false) : unitTarget so i ipc zf fa fb = none := by
  simp [unitTarget, resolve, hj, hb]

@[simp] theorem unitTarget_beq :
    unitTarget so (.beq rs rt imm) ipc zf fa fb = if fa == fb then some (ipc + 1 + imm) else none := by
  simp only [unitTarget, unitOut_beq]
  rfl

@[simp] theorem unitTarget_bgez :
    unitTarget so (.bgez rs imm) ipc zf fa fb = if decide (0 ≤ s32 fa) then some (ipc + 1 + imm) else none := rfl

@[simp] theorem unitTarget_j : unitTarget so (.j addr) ipc zf fa fb = some addr := rfl

end UnitRules

/-- Execute for a latch with its instruction's own row and immediate. -/
theorem executeOut_of_carries {s : State} {e : IdEx} (he : s.idex = some e) (hc : e.ctrl = decodeCtrl e.instr.opcode)
    (himm : e.imm = e.instr.imm) :
    executeOut s = some
      ⟨some ⟨e.instr, e.ipc,
          (unitOut s.params.shiftOperands e.instr s.zf (forward s e.instr.rs e.a) (forward s e.instr.rt e.b)).1,
          forward s e.instr.rt e.b, e.dest, e.ctrl⟩,
        (unitOut s.params.shiftOperands e.instr s.zf (forward s e.instr.rs e.a) (forward s e.instr.rt e.b)).2,
        unitTarget s.params.shiftOperands e.instr e.ipc s.zf (forward s e.instr.rs e.a) (forward s e.instr.rt e.b)⟩ := by
  have hj : (decodeCtrl e.instr.opcode).jump = (aluOpOf e.instr.opcode).isNone := by
    cases e.instr.opcode <;> rfl
  simp only [executeOut, he, hc, himm, hj, unitTarget, unitOut]
  cases aluOpOf e.instr.opcode <;> rfl

/-- The registers an instruction reads (R152, D9) decide its result, its flag and where it goes on to; BGEZ compares with
register 0 beside them (R212). -/
theorem unit_congr {so : ShiftOperands} {i : Instr} {fa fa' fb fb' : Word} (hrs : readsRs so i.opcode = true → fa = fa')
    (hrt : readsRt i.opcode = true → fb = fb') (hzero : i.rt = 0 → fb = fb') (ipc : Word) (zf : Bool) :
    unitOut so i zf fa fb = unitOut so i zf fa' fb' ∧ unitTarget so i ipc zf fa fb = unitTarget so i ipc zf fa' fb' := by
  cases i
  case add | sub | and | or | xor | slt =>
    rw [unitTarget_of_no_transfer so ipc zf fa fb rfl rfl, unitTarget_of_no_transfer so ipc zf fa' fb' rfl rfl]
    simp [hrs rfl, hrt rfl]
  case beq => simp [hrs rfl, hrt rfl]
  case bgez => simp [hrs rfl, hzero rfl]
  case sll | srl =>
    rw [unitTarget_of_no_transfer so ipc zf fa fb rfl rfl, unitTarget_of_no_transfer so ipc zf fa' fb' rfl rfl]
    cases so
    case rtShamt => simp [hrt rfl]
    case rsRt => simp [hrs rfl, hrt rfl]
  case addi | ori | lw | sw =>
    rw [unitTarget_of_no_transfer so ipc zf fa fb rfl rfl, unitTarget_of_no_transfer so ipc zf fa' fb' rfl rfl]
    simp [hrs rfl]
  case j => simp

/-! The Memory stage by the row of its latch. -/

theorem memoryOut_of_passes {s : State} {m : ExMem} (hm : s.exmem = some m) (hr : m.ctrl.memRead = false)
    (hw : m.ctrl.memWrite = false) :
    memoryOut s = .ok (some ⟨m.instr, m.ipc, m.alu, 0, m.dest, m.ctrl⟩, s.dmem) := by
  simp [memoryOut, hm, loadedWord, storedMemory, hr, hw]

theorem memoryOut_of_load {s : State} {m : ExMem} (hm : s.exmem = some m) (hr : m.ctrl.memRead = true)
    (hw : m.ctrl.memWrite = false) :
    memoryOut s = match memRead s.params s.dmem m.alu with
      | .error k => .error k
      | .ok v => .ok (some ⟨m.instr, m.ipc, m.alu, v, m.dest, m.ctrl⟩, s.dmem) := by
  simp only [memoryOut, hm, loadedWord, storedMemory, hr, hw, if_true, Bool.false_eq_true, if_false]
  cases memRead s.params s.dmem m.alu <;> rfl

theorem memoryOut_of_store {s : State} {m : ExMem} (hm : s.exmem = some m) (hr : m.ctrl.memRead = false)
    (hw : m.ctrl.memWrite = true) :
    memoryOut s = match memWrite s.params s.dmem m.alu (storeData s m.instr m) with
      | .error k => .error k
      | .ok d => .ok (some ⟨m.instr, m.ipc, m.alu, 0, m.dest, m.ctrl⟩, d) := by
  simp only [memoryOut, hm, loadedWord, storedMemory, hr, hw, if_true, Bool.false_eq_true, if_false]
  cases memWrite s.params s.dmem m.alu (storeData s m.instr m) <;> rfl

theorem completeMemWb_some (w : MemWb) (f : RegFile) :
    completeMemWb (some w) f = if w.ctrl.regWrite then regWrite f w.dest (wbval w) else f := rfl

/-- An instruction that has passed Execute with the operands `x[rs]` and `x[rt]` of an architectural state stands before
Memory, in a state with that state's memory. -/
structure PassedExecute (s : State) (m : ExMem) (a : ArchState) (zf : Bool) : Prop where
  latch : s.exmem = some m
  ctrl : m.ctrl = decodeCtrl m.instr.opcode
  dest : m.dest = destOf m.instr m.ctrl
  alu : m.alu = (unitOut s.params.shiftOperands m.instr zf (regRead a.regs m.instr.rs) (regRead a.regs m.instr.rt)).1
  mem : s.dmem = a.mem
  store : m.instr.opcode = .SW → storeData s m.instr m = regRead a.regs m.instr.rt

/-- The architectural effect of an instruction is the completion of its latches, at the index Execute goes on to. -/
theorem archEffect_eq_stages {s : State} {m : ExMem} {a : ArchState} {zf : Bool} (h : PassedExecute s m a zf) :
    archEffect s.params m.instr a = match memoryOut s with
      | .error k => .fault k
      | .ok (mw, d) => .next ⟨completeMemWb mw a.regs, d,
          (unitTarget s.params.shiftOperands m.instr a.pc zf (regRead a.regs m.instr.rs)
            (regRead a.regs m.instr.rt)).getD (a.pc + 1)⟩ := by
  obtain ⟨latch, ctrl, dest, alu, mem, store⟩ := h
  obtain ⟨i, ipc, alu, sd, dest, ctrl⟩ := m
  dsimp only at *
  subst dest ctrl alu
  cases i
  case add | sub | and | or | xor | slt | addi | ori =>
    rw [memoryOut_of_passes latch rfl rfl, mem]
    rfl
  case sll rd _ _ _ | srl rd _ _ _ =>
    rw [memoryOut_of_passes latch rfl rfl, mem]
    show archWrite a rd _ = archWrite a rd (unitOut s.params.shiftOperands _ zf _ _).1
    simp only [archShift]
    cases s.params.shiftOperands <;> simp [Instr.rs, Instr.rt]
  case beq =>
    rw [memoryOut_of_passes latch rfl rfl, mem]
    simp only [unitTarget_beq, archEffect, archBranch, Instr.rs, Instr.rt]
    cases regRead a.regs _ == regRead a.regs _ <;> rfl
  case bgez =>
    rw [memoryOut_of_passes latch rfl rfl, mem]
    simp only [unitTarget_bgez, archEffect, archBranch, Instr.rs]
    cases decide (0 ≤ s32 (regRead a.regs _)) <;> rfl
  case j =>
    rw [memoryOut_of_passes latch rfl rfl, mem]
    rfl
  case lw =>
    rw [memoryOut_of_load latch rfl rfl, mem]
    simp only [archEffect, unitOut_lw, Instr.rs]
    cases memRead s.params a.mem _ <;> rfl
  case sw =>
    rw [memoryOut_of_store latch rfl rfl, store rfl, mem]
    simp only [archEffect, unitOut_sw, Instr.rs, Instr.rt]
    cases memWrite s.params a.mem _ _ <;> rfl

end Sys2Proof.Machine

/-! PROOFS. One step of the pipeline and one instruction of sequential execution: obligation O55 (41_pipeline.md R167). -/

namespace Sys2Proof.Machine

/-! Reading a register of the architectural state: the latches that are still to be written back come first. -/

theorem regRead_completeMemWb (l : Option MemWb) (f : RegFile) {r : Reg} (hr : r ≠ 0) :
    regRead (completeMemWb l f) r = (snapSource l r).getD (regRead f r) := by
  cases l with
  | none => rfl
  | some w =>
    rw [completeMemWb_some, snapSource]
    cases hw : w.ctrl.regWrite
    · simp
    · by_cases hd : w.dest = r
      · subst hd
        simp [regRead_regWrite_self f (wbval w) hr]
      · simp [hd, regRead_regWrite_ne f (wbval w) (Ne.symm hd)]

theorem forward_of_fwdEn {s : State} (hf : s.fwdEn = true) {r : Reg} (hr : r ≠ 0) (v : Word) :
    forward s r v = ((exmemSource s.exmem r).or (snapSource s.snap r)).getD v := by
  rw [forward, if_neg hr, if_pos hf]

theorem forward_zero (s : State) (v : Word) : forward s 0 v = 0 := if_pos rfl

/-- A row writes a register from memory exactly where it reads memory (R111). -/
theorem memToReg_eq_memRead (op : Opcode) : (decodeCtrl op).memToReg = (decodeCtrl op).memRead := by
  cases op <;> rfl

/-- What the Execute→Memory latch supplies to forwarding is what it will write back. -/
theorem snapSource_of_exmemSource {s : State} {mw : Option MemWb} {d : Memory} {r : Reg} {v : Word}
    (hc : ∀ m, s.exmem = some m → m.ctrl = decodeCtrl m.instr.opcode) (hm : memoryOut s = .ok (mw, d))
    (h : exmemSource s.exmem r = some v) : snapSource mw r = some v := by
  rcases memoryOut_eq_ok hm with ⟨he, _, _⟩ | ⟨m, x, he, _, _, rfl⟩
  · rw [he] at h; cases h
  · have hrow := memToReg_eq_memRead m.instr.opcode
    rw [← hc m he] at hrow
    simp only [he, exmemSource, Option.ite_none_right_eq_some, Bool.and_eq_true, Bool.not_eq_true'] at h
    obtain ⟨⟨⟨hw, hd⟩, hr⟩, hv⟩ := h
    simp [snapSource, wbval, hw, hd, hrow, hr, hv]

/-- Where the Execute→Memory latch supplies nothing and holds no load of the register, it will not write it back. -/
theorem snapSource_eq_none_of_exmemSource {s : State} {mw : Option MemWb} {d : Memory} {r : Reg}
    (hm : memoryOut s = .ok (mw, d)) (hno : ∀ m, s.exmem = some m → m.ctrl.memRead = true → m.dest ≠ r)
    (h : exmemSource s.exmem r = none) : snapSource mw r = none := by
  rcases memoryOut_eq_ok hm with ⟨_, rfl, _⟩ | ⟨m, x, he, _, _, rfl⟩
  · rfl
  · have hload := hno m he
    simp only [he, exmemSource] at h
    cases hr : m.ctrl.memRead
    · simpa [snapSource, hr] using h
    · simp [snapSource, hload hr]

/-- A forwarded operand is what the register holds once the two older instructions are completed, unless the older of the
latches holds a load of that register (R146). -/
theorem forward_eq_completed {s : State} {mw : Option MemWb} {d : Memory} {r : Reg}
    (hf : s.fwdEn = true) (hc : ∀ m, s.exmem = some m → m.ctrl = decodeCtrl m.instr.opcode)
    (hm : memoryOut s = .ok (mw, d)) (hno : r ≠ 0 → ∀ m, s.exmem = some m → m.ctrl.memRead = true → m.dest ≠ r) :
    forward s r (regRead s.regs r) = regRead (completeMemWb mw (completeMemWb s.snap s.regs)) r := by
  by_cases hr : r = 0
  · rw [hr, forward_zero, regRead_zero]
  · rw [forward_of_fwdEn hf hr, regRead_completeMemWb _ _ hr, regRead_completeMemWb _ _ hr]
    cases h : exmemSource s.exmem r with
    | none =>
      rw [snapSource_eq_none_of_exmemSource hm (hno hr) h]
      rfl
    | some v =>
      rw [snapSource_of_exmemSource hc hm h]
      rfl

/-- A store's data one cycle later: what the next snapshot supplies, else what Execute forwarded, is the completed register
whatever the latches held (R143). -/
theorem getD_forward_eq_completed {s : State} {mw : Option MemWb} {d : Memory} {r : Reg} (hr : r ≠ 0)
    (hf : s.fwdEn = true) (hc : ∀ m, s.exmem = some m → m.ctrl = decodeCtrl m.instr.opcode)
    (hm : memoryOut s = .ok (mw, d)) :
    (snapSource mw r).getD (forward s r (regRead s.regs r)) =
      regRead (completeMemWb mw (completeMemWb s.snap s.regs)) r := by
  rw [forward_of_fwdEn hf hr, regRead_completeMemWb _ _ hr, regRead_completeMemWb _ _ hr]
  cases h : exmemSource s.exmem r with
  | none => rfl
  | some v =>
    rw [snapSource_of_exmemSource hc hm h]
    rfl

/-! The architectural state of a pipeline state. -/

/-- Completing the two latches is Memory's output written back. -/
theorem archOf_eq (s : State) :
    archOf s = match memoryOut { s with snap := s.memwb } with
      | .error k => .error k
      | .ok (mw, d) => .ok ⟨completeMemWb mw (completeMemWb s.memwb s.regs), d, nextIndex s⟩ := by
  unfold archOf memoryOut
  cases s.exmem with
  | none => rfl
  | some m =>
    dsimp only
    generalize loadedWord m _ = loaded
    generalize storedMemory m.instr m _ = stored
    cases loaded <;> cases stored <;> rfl

theorem archOf_eq_ok {s : State} {a : ArchState} (h : archOf s = .ok a) :
    ∃ mw d, memoryOut { s with snap := s.memwb } = .ok (mw, d) ∧
      a = ⟨completeMemWb mw (completeMemWb s.memwb s.regs), d, nextIndex s⟩ := by
  rw [archOf_eq] at h
  cases hm : memoryOut { s with snap := s.memwb } with
  | error k => rw [hm] at h; cases h
  | ok out =>
    obtain ⟨mw, d⟩ := out
    rw [hm] at h
    cases h
    exact ⟨mw, d, rfl, rfl⟩

/-- What stands behind the instruction in Execute is its successor: fetched already, or to be fetched (R165 (a)). -/
theorem PipeInv.next_ipc {s : State} (h : PipeInv s) {e : IdEx} (he : s.idex = some e) :
    (s.ifid = none → s.pc = e.ipc + 1) ∧ (∀ f, s.ifid = some f → f.ipc = e.ipc + 1) := by
  have hn := h.idexNext e he
  constructor
  · intro hf
    rw [hf] at hn
    exact hn
  · intro f hf
    rw [hf] at hn
    exact hn

/-- What a fetch at `k` leaves behind an empty Decode→Execute latch is next at `k`. -/
theorem nextIndex_of_fetch {t : State} {k : Word} (he : t.idex = none) (hf : t.ifid = fetchAt t.imem k)
    (hpc : t.pc = pcAfterFetch t.imem k) : nextIndex t = k := by
  rw [nextIndex, he, hf, hpc]
  cases h : fetchAt t.imem k with
  | none => exact (fetchAt_eq_none h).2
  | some f => exact (fetchAt_eq_some h).1

/-- With nothing in Execute, the oldest instruction that has not passed it is the same one after the cycle. -/
theorem nextIndex_cycleEnd_of_none {s : State} (he : s.idex = none) {mw : Option MemWb} {d : Memory}
    {x : ExecuteOut} (hx : x.target = none) :
    nextIndex (cycleEnd s mw d x (afterDecode s (afterExecute s x.target))) = nextIndex s := by
  rcases afterDecode_cases s x.target with ⟨t, ht, _⟩ | ⟨_, hf, hd⟩ | ⟨f, _, _, hz, _⟩ | ⟨f, _, hf, _, hd⟩
  · rw [hx] at ht; cases ht
  · rw [hd]
    exact (nextIndex_of_fetch rfl rfl rfl).trans (by simp only [nextIndex, he, hf])
  · simp [hazard, he] at hz
  · rw [hd]
    simp only [nextIndex, cycleEnd, he, hf]
    rfl

/-- With an instruction in Execute, the next one is where it goes on to. -/
theorem nextIndex_cycleEnd_of_some {s : State} (h : PipeInv s) {e : IdEx} (he : s.idex = some e) {mw : Option MemWb}
    {d : Memory} {x : ExecuteOut} :
    nextIndex (cycleEnd s mw d x (afterDecode s (afterExecute s x.target))) = x.target.getD (e.ipc + 1) := by
  obtain ⟨hempty, hbehind⟩ := h.next_ipc he
  rcases afterDecode_cases s x.target with ⟨t, ht, hd⟩ | ⟨ht, hf, hd⟩ | ⟨f, ht, hf, _, hd⟩ | ⟨f, ht, hf, _, hd⟩
  · rw [hd, ht]
    exact nextIndex_of_fetch rfl rfl rfl
  · rw [hd, ht]
    exact (nextIndex_of_fetch rfl rfl rfl).trans (hempty hf)
  · rw [hd, ht, (h.refetch hf).1]
    exact (nextIndex_of_fetch rfl rfl rfl).trans (hbehind f hf)
  · rw [hd, ht]
    exact hbehind f hf

/-! The simulation. -/

theorem archOf_cycleEnd (s : State) (mw : Option MemWb) (d : Memory) (x : ExecuteOut) (dec : Option IdEx × Word × Nat) :
    archOf (cycleEnd s mw d x dec) = match memoryOut { cycleEnd s mw d x dec with snap := mw } with
      | .error k => .error k
      | .ok (mw', d') => .ok ⟨completeMemWb mw' (completeMemWb mw (completeMemWb s.memwb s.regs)), d',
          nextIndex (cycleEnd s mw d x dec)⟩ := archOf_eq _

/-- The load-use check covers the registers an instruction reads, but for a store's data (R152). -/
theorem ne_of_comparesWith_false {p : Params} {i : Instr} {dest : Reg}
    (h : comparesWith p i (decodeCtrl i.opcode) dest = false) :
    (readsRs p.shiftOperands i.opcode = true → dest ≠ i.rs) ∧ (readsRt i.opcode = true → dest ≠ i.rt) := by
  have store : readsRt i.opcode = true → (decodeCtrl i.opcode).memWrite = false := by
    cases i.opcode <;> decide
  unfold comparesWith at h
  split at h
  all_goals
    simp only [Bool.or_eq_false_iff, Bool.and_eq_false_iff, beq_eq_false_iff_ne, Bool.not_eq_false'] at h
    obtain ⟨hrs, hrt⟩ := h
  · refine ⟨fun _ => Ne.symm hrs, fun hr => ?_⟩
    rcases hrt with hrt | hw
    · exact Ne.symm hrt
    · rw [store hr] at hw; cases hw
  · exact ⟨fun hr => Ne.symm (hrs.resolve_left (by simp [hr])), fun hr => Ne.symm (hrt.resolve_left (by simp [hr]))⟩

/-- What Execute hands on for the instruction `e` is that instruction on the completed registers: the operands it reads are
forwarded (R146), the load-use check has kept a load away from them (R152). -/
theorem executeOut_eq_arch {s : State} (h : PipeInv s) (hen : s.hazardEn = true) (hfwd : s.fwdEn = true) {e : IdEx}
    (he : s.idex = some e) {mw : Option MemWb} {d : Memory} (hm : memoryOut { s with snap := s.memwb } = .ok (mw, d)) :
    let f := completeMemWb mw (completeMemWb s.memwb s.regs)
    let out := unitOut s.params.shiftOperands e.instr s.zf (regRead f e.instr.rs) (regRead f e.instr.rt)
    let sd := forward { s with snap := s.memwb } e.instr.rt e.b
    executeOut { s with snap := s.memwb } = some ⟨some ⟨e.instr, e.ipc, out.1, sd, e.dest, e.ctrl⟩, out.2,
      unitTarget s.params.shiftOperands e.instr e.ipc s.zf (regRead f e.instr.rs) (regRead f e.instr.rt)⟩ := by
  intro f out sd
  obtain ⟨hctrl, -⟩ := h.idexCtrl e he
  have hrow : ∀ m, s.exmem = some m → m.ctrl = decodeCtrl m.instr.opcode := fun m hm => (h.exmemCtrl m hm).1
  have checked : ∀ m, s.exmem = some m → m.ctrl.memRead = true → m.dest ≠ 0 →
      comparesWith s.params e.instr (decodeCtrl e.instr.opcode) m.dest = false := by
    intro m hxm hr hd
    have hl := h.loadUse hen m e hxm he
    rw [hctrl] at hl
    exact Bool.eq_false_iff.mpr fun hc => hl ⟨hr, hd, hc⟩
  have hrs : readsRs s.params.shiftOperands e.instr.opcode = true →
      forward { s with snap := s.memwb } e.instr.rs e.a = regRead f e.instr.rs := by
    intro hreads
    rw [h.idexRs e he]
    refine forward_eq_completed (s := { s with snap := s.memwb }) hfwd hrow hm fun hr m hxm hload heq => ?_
    exact (ne_of_comparesWith_false (checked m hxm hload (heq ▸ hr))).1 hreads heq
  have hrt : readsRt e.instr.opcode = true →
      forward { s with snap := s.memwb } e.instr.rt e.b = regRead f e.instr.rt := by
    intro hreads
    rw [h.idexRt e he]
    refine forward_eq_completed (s := { s with snap := s.memwb }) hfwd hrow hm fun hr m hxm hload heq => ?_
    exact (ne_of_comparesWith_false (checked m hxm hload (heq ▸ hr))).2 hreads heq
  have hzero : e.instr.rt = 0 → forward { s with snap := s.memwb } e.instr.rt e.b = regRead f e.instr.rt := by
    intro hr
    rw [hr, forward_zero, regRead_zero]
  obtain ⟨hout, htarget⟩ := unit_congr hrs hrt hzero e.ipc s.zf
  rw [executeOut_of_carries (s := { s with snap := s.memwb }) he hctrl (h.idexImm e he)]
  simp only [hout, htarget]
  rfl

/-- The data a store takes along is its register of the completed registers, whatever is still in flight (R143). -/
theorem storeData_cycleEnd {s : State} (h : PipeInv s) (hset : defaultSetting s) {e : IdEx} (he : s.idex = some e)
    {mw : Option MemWb} {d : Memory} (hm : memoryOut { s with snap := s.memwb } = .ok (mw, d)) {x : ExecuteOut}
    {dec : Option IdEx × Word × Nat} {m : ExMem} (hsd : m.sd = forward { s with snap := s.memwb } e.instr.rt e.b) :
    storeData { cycleEnd s mw d x dec with snap := mw } e.instr m =
      regRead (completeMemWb mw (completeMemWb s.memwb s.regs)) e.instr.rt := by
  obtain ⟨_, hfwd, hstore⟩ := hset
  have on : storeData { cycleEnd s mw d x dec with snap := mw } e.instr m =
      if e.instr.rt != 0 then (snapSource mw e.instr.rt).getD m.sd else m.sd := by
    simp only [storeData, cycleEnd, hfwd, hstore, Bool.and_self, Bool.true_and]
  rw [on, hsd, h.idexRt e he]
  by_cases hr : e.instr.rt = 0
  · rw [hr, forward_zero, regRead_zero]
    rfl
  · rw [if_pos (bne_iff_ne.mpr hr)]
    exact getD_forward_eq_completed (s := { s with snap := s.memwb }) hr hfwd (fun m hm => (h.exmemCtrl m hm).1) hm

/-- The architectural effect of the instruction in Execute is the completion of the latches this cycle leaves. -/
theorem archEffect_eq_cycleEnd {s : State} (h : PipeInv s) (hset : defaultSetting s) {e : IdEx} (he : s.idex = some e)
    {mw : Option MemWb} {d : Memory} (hm : memoryOut { s with snap := s.memwb } = .ok (mw, d)) {x : ExecuteOut}
    (hx : executeOut { s with snap := s.memwb } = some x) (dec : Option IdEx × Word × Nat) :
    archEffect s.params e.instr ⟨completeMemWb mw (completeMemWb s.memwb s.regs), d, e.ipc⟩ =
      match memoryOut { cycleEnd s mw d x dec with snap := mw } with
      | .error k => .fault k
      | .ok (mw', d') => .next ⟨completeMemWb mw' (completeMemWb mw (completeMemWb s.memwb s.regs)), d',
          x.target.getD (e.ipc + 1)⟩ := by
  have ⟨hen, hfwd, _⟩ := hset
  obtain ⟨hctrl, hdest⟩ := h.idexCtrl e he
  rw [executeOut_eq_arch h hen hfwd he hm] at hx
  cases hx
  exact archEffect_eq_stages (s := { cycleEnd s mw d _ dec with snap := mw })
    (m := ⟨e.instr, e.ipc, _, forward { s with snap := s.memwb } e.instr.rt e.b, e.dest, e.ctrl⟩)
    (a := ⟨completeMemWb mw (completeMemWb s.memwb s.regs), d, e.ipc⟩) (zf := s.zf)
    { latch := rfl, ctrl := hctrl, dest := hdest, alu := rfl, mem := rfl
      store := fun _ => storeData_cycleEnd h hset he hm rfl }

theorem executeOut_empty {s : State} (he : s.idex = none) {x : ExecuteOut} (hx : executeOut s = some x) :
    x.exmem = none ∧ x.target = none := by
  rw [executeOut_of_none he] at hx
  cases hx
  exact ⟨rfl, rfl⟩

/-- Settles O55: an empty Execute stage changes neither the completed data nor the next index; an occupied one changes both
as its instruction does. -/
theorem stepSimulatesSequentialExecution : Obligations.StepSimulatesSequentialExecution := by
  intro s t a hs hset hr ha ht
  obtain ⟨mw, d, hm, rfl⟩ := archOf_eq_ok ha
  obtain ⟨mw', d', x, hm', hx, _, rfl⟩ := step_next_parts hr ht
  rw [hm] at hm'
  cases hm'
  rw [archOf_cycleEnd]
  constructor
  · intro he
    obtain ⟨hxm, htarget⟩ := executeOut_empty (s := { s with snap := s.memwb }) he hx
    rw [memoryOut_of_none (by exact hxm)]
    dsimp only
    rw [nextIndex_cycleEnd_of_none he htarget]
    rfl
  · intro e he
    have hpc : nextIndex s = e.ipc := by simp only [nextIndex, he]
    refine ⟨hpc.symm, ?_⟩
    rw [hpc, archEffect_eq_cycleEnd hs hset he hm hx (afterDecode s (afterExecute s x.target)),
      nextIndex_cycleEnd_of_some hs he]
    cases memoryOut _ <;> rfl

end Sys2Proof.Machine

/-! PROOFS. Whole runs of the pipeline and of sequential execution: obligations O56 and O57 (41_pipeline.md R167). -/

namespace Sys2Proof.Machine

/-! Sequential runs. -/

theorem seqRun_succ_of_next {p : Params} {im : Store} {a b : ArchState} (h : seqStep p im a = .next b) (m : Nat) :
    seqRun p im (m + 1) a = seqRun p im m b := by
  rw [seqRun, h]

theorem seqRun_succ_of_ended {p : Params} {im : Store} {a b : ArchState} (h : seqStep p im a = .ended b) (m : Nat) :
    seqRun p im (m + 1) a = .ended b := by
  rw [seqRun, h]

theorem seqRun_succ_of_fault {p : Params} {im : Store} {a : ArchState} {k : ErrorKind} (h : seqStep p im a = .fault k)
    (m : Nat) : seqRun p im (m + 1) a = .fault k := by
  rw [seqRun, h]

/-- A sequential run that has come to its end or to an error stays there. -/
theorem seqRun_add {p : Params} {im : Store} {m : Nat} {a : ArchState} (h : ∀ b, seqRun p im m a ≠ .next b) (k : Nat) :
    seqRun p im (m + k) a = seqRun p im m a := by
  induction m generalizing a with
  | zero => exact absurd rfl (h a)
  | succ m ih =>
    rw [Nat.add_right_comm]
    cases hs : seqStep p im a with
    | next b =>
      rw [seqRun_succ_of_next hs] at h ⊢
      rw [seqRun_succ_of_next hs]
      exact ih h
    | ended b => rw [seqRun_succ_of_ended hs, seqRun_succ_of_ended hs]
    | fault k => rw [seqRun_succ_of_fault hs, seqRun_succ_of_fault hs]

/-- Sequential execution has one outcome. -/
theorem seqRun_unique {p : Params} {im : Store} {m n : Nat} {a : ArchState} (hm : ∀ b, seqRun p im m a ≠ .next b)
    (hn : ∀ b, seqRun p im n a ≠ .next b) : seqRun p im m a = seqRun p im n a := by
  rw [← seqRun_add hm n, ← seqRun_add hn m, Nat.add_comm]

/-- A taken transfer changes the index alone. -/
theorem archEffect_of_target {p : Params} {i : Instr} {a : ArchState} {zf : Bool} {t : Word}
    (h : unitTarget p.shiftOperands i a.pc zf (regRead a.regs i.rs) (regRead a.regs i.rt) = some t) :
    archEffect p i a = .next { a with pc := t } := by
  cases i
  case beq =>
    simp only [unitTarget_beq, Option.ite_none_right_eq_some, Option.some.injEq] at h
    obtain ⟨htaken, rfl⟩ := h
    exact congrArg (fun c => SeqResult.next { a with pc := c }) (if_pos htaken)
  case bgez =>
    simp only [unitTarget_bgez, Option.ite_none_right_eq_some, Option.some.injEq] at h
    obtain ⟨htaken, rfl⟩ := h
    exact congrArg (fun c => SeqResult.next { a with pc := c }) (if_pos htaken)
  case j =>
    cases h
    rfl
  all_goals
    rw [unitTarget_of_no_transfer _ _ _ _ _ rfl rfl] at h
    cases h

theorem archEffect_ne_ended (p : Params) (i : Instr) (a b : ArchState) : archEffect p i a ≠ .ended b := by
  cases i
  case lw => simp only [archEffect]; split <;> exact nofun
  case sw => simp only [archEffect]; split <;> exact nofun
  all_goals exact nofun

/-! A pipeline state in a run, and the state of sequential execution it stands for. -/

/-- A state, in a run of the program `im` under the parameters `p`, that stands for `a`. -/
structure StandsFor (p : Params) (im : Store) (s : State) (a : ArchState) : Prop where
  params : s.params = p
  imem : s.imem = im
  inv : PipeInv s
  setting : defaultSetting s
  noFault : s.fault = none
  short : im.length < maxProgLen
  arch : archOf s = .ok a
  /-- a halted core has come to an absent slot -/
  haltedAt : s.halted = true → slotAt im s.pc = none

/-- A state whose Memory stage is about to raise `k`. -/
structure AboutToRaise (s : State) (k : ErrorKind) : Prop where
  running : stopped s = false
  arch : archOf s = .error k

theorem drained_iff (s : State) :
    drained s = true ↔ s.ifid = none ∧ s.idex = none ∧ s.exmem = none ∧ s.memwb = none := by
  simp [drained, and_assoc]

theorem archOf_of_drained {s : State} (h : drained s = true) : archOf s = .ok (archStart s) := by
  obtain ⟨hf, he, hm, hw⟩ := (drained_iff s).mp h
  rw [archOf_eq, memoryOut_of_none (s := { s with snap := s.memwb }) hm, hw]
  simp only [nextIndex, hf, he]
  rfl

/-- A start state meets the invariant: nothing is in flight. -/
theorem RunStart.pipeInv {s : State} (h : RunStart s) : PipeInv s := by
  obtain ⟨hf, he, hm, hw⟩ := (drained_iff s).mp h.empty
  exact {
    progLen := h.progLen.le
    pcLow := fun _ => h.pcLow
    ifidSlot := fun _ h => nomatch hf.symm.trans h
    idexSlot := fun _ h => nomatch he.symm.trans h
    exmemSlot := fun _ h => nomatch hm.symm.trans h
    memwbSlot := fun _ h => nomatch hw.symm.trans h
    ifidPc := fun _ h => nomatch hf.symm.trans h
    idexNext := fun _ h => nomatch he.symm.trans h
    idexRs := fun _ h => nomatch he.symm.trans h
    idexRt := fun _ h => nomatch he.symm.trans h
    idexImm := fun _ h => nomatch he.symm.trans h
    idexCtrl := fun _ h => nomatch he.symm.trans h
    exmemCtrl := fun _ h => nomatch hm.symm.trans h
    memwbCtrl := fun _ h => nomatch hw.symm.trans h
    loadUse := fun _ _ _ h => nomatch hm.symm.trans h
    haltedDrained := fun _ => h.empty }

/-- A start state stands for what it holds. -/
theorem RunStart.standsFor {s : State} (h : RunStart s) (hset : defaultSetting s) :
    StandsFor s.params s.imem s (archStart s) := by
  obtain ⟨hhalted, hfault⟩ := halted_of_running h.running
  exact ⟨rfl, rfl, h.pipeInv, hset, hfault, h.progLen, archOf_of_drained h.empty,
    fun hh => by rw [hhalted] at hh; cases hh⟩

theorem StandsFor.program {p : Params} {im : Store} {s : State} {a : ArchState} (h : StandsFor p im s a) :
    s.params = p ∧ s.imem = im := ⟨h.params, h.imem⟩

theorem StandsFor.running {p : Params} {im : Store} {s : State} {a : ArchState} (h : StandsFor p im s a)
    (hh : s.halted = false) : stopped s = false :=
  stopped_eq_false hh h.noFault

/-- An instruction in Execute is the one sequential execution is at. -/
theorem StandsFor.seqStep_eq {p : Params} {im : Store} {s : State} {a : ArchState} (h : StandsFor p im s a) {e : IdEx}
    (he : s.idex = some e) :
    a.pc = e.ipc ∧ seqStep p im a = archEffect p e.instr a := by
  obtain ⟨rfl, rfl⟩ := h.program
  obtain ⟨mw, d, _, rfl⟩ := archOf_eq_ok h.arch
  have hpc : nextIndex s = e.ipc := by simp only [nextIndex, he]
  have hslot := h.inv.idexSlot e he
  refine ⟨hpc, ?_⟩
  simp only [seqStep, hpc, hslot, slotAt_msb h.inv.progLen hslot, Bool.false_eq_true, if_false]

/-- A core that halts has fetched from an absent slot. -/
theorem cycleEnd_haltedAt {s : State} (hrun : s.halted = false) {mw : Option MemWb} {d : Memory} {x : ExecuteOut}
    {dec : Option IdEx × Word × Nat} (h : (cycleEnd s mw d x dec).halted = true) :
    slotAt s.imem (cycleEnd s mw d x dec).pc = none := by
  simp only [cycleEnd, hrun, Bool.false_or, Bool.and_eq_true, Option.isNone_iff_eq_none] at h ⊢
  obtain ⟨⟨⟨hf, _⟩, _⟩, _⟩ := h
  obtain ⟨hslot, hpc⟩ := fetchAt_eq_none hf
  rw [hpc, hslot]

/-- A step of a run: the instruction in Execute, if there is one, is executed sequentially, or is about to raise. -/
theorem StandsFor.next_cases {p : Params} {im : Store} {s t : State} {a : ArchState} (h : StandsFor p im s a)
    (hh : s.halted = false) (ht : step s = .next t) :
    (s.idex = none ∧ StandsFor p im t a) ∨
    (∃ b, s.idex ≠ none ∧ seqStep p im a = .next b ∧ StandsFor p im t b) ∨
    (∃ k, s.idex ≠ none ∧ seqStep p im a = .fault k ∧ AboutToRaise t k) := by
  obtain ⟨rfl, rfl⟩ := h.program
  have hr := h.running hh
  have hinv := stepKeepsPipelineInvariant s t h.inv ht
  obtain ⟨hnone, hsome⟩ := stepSimulatesSequentialExecution s t a h.inv h.setting hr h.arch ht
  obtain ⟨mw, d, x, hm, hx, hp, rfl⟩ := step_next_parts hr ht
  have stands : ∀ b, archOf (cycleEnd s mw d x (afterDecode s (afterExecute s x.target))) = .ok b →
      StandsFor s.params s.imem (cycleEnd s mw d x (afterDecode s (afterExecute s x.target))) b := fun _ harch =>
    ⟨rfl, rfl, hinv, h.setting, h.noFault, h.short, harch, cycleEnd_haltedAt hh⟩
  cases he : s.idex with
  | none => exact .inl ⟨rfl, stands a (hnone he)⟩
  | some e =>
    have heff := (hsome e he).2
    rw [(h.seqStep_eq he).2]
    cases hb : archEffect s.params e.instr a with
    | next b =>
      rw [hb] at heff
      exact .inr (.inl ⟨b, nofun, rfl, stands b heff⟩)
    | ended b => exact absurd hb (archEffect_ne_ended _ _ _ _)
    | fault k =>
      rw [hb] at heff
      refine .inr (.inr ⟨k, nofun, rfl, stopped_eq_false ?_ h.noFault, heff⟩)
      cases hhalt : (cycleEnd s mw d x (afterDecode s (afterExecute s x.target))).halted with
      | false => rfl
      | true =>
        rw [archOf_of_drained (hinv.haltedDrained hhalt)] at heff
        cases heff

/-- The step of a core whose Memory stage is about to raise. -/
theorem AboutToRaise.raises {s : State} {k : ErrorKind} (h : AboutToRaise s k) : ∃ u, step s = .fault (.raised k u) := by
  have harch := h.arch
  rw [archOf_eq] at harch
  cases hm : memoryOut { s with snap := s.memwb } with
  | ok out => rw [hm] at harch; cases harch
  | error k' =>
    rw [hm] at harch
    cases harch
    rw [step_eq h.running, hm]
    exact ⟨_, rfl⟩

/-- Only a taken transfer sends Fetch to an index with bit 31 set (R225). -/
theorem PipeInv.target_of_msb {s : State} (h : PipeInv s) (hl : s.imem.length < maxProgLen) {target : Option Word}
    (hp : (afterDecode s (afterExecute s target)).2.1.msb = true) : ∃ t, target = some t ∧ t.msb = true := by
  have hlow := h.pcLow hl
  rcases afterDecode_cases s target with ⟨t, ht, hd⟩ | ⟨_, _, hd⟩ | ⟨f, _, hf, _, hd⟩ | ⟨f, _, _, _, hd⟩
  · rw [hd] at hp
    exact ⟨t, ht, hp⟩
  · rw [hd, hlow] at hp; cases hp
  · obtain ⟨hback, hfLow, _⟩ := h.refetch hf
    rw [hd, hback, hfLow] at hp; cases hp
  · rw [hd, hlow] at hp; cases hp

/-- A transfer that the cycle takes is the architectural effect of the instruction in Execute. -/
theorem StandsFor.seqStep_of_target {p : Params} {im : Store} {s : State} {a : ArchState} (h : StandsFor p im s a)
    {x : ExecuteOut} (hx : executeOut { s with snap := s.memwb } = some x) {t : Word} (ht : x.target = some t) :
    seqStep p im a = .next { a with pc := t } := by
  obtain ⟨rfl, rfl⟩ := h.program
  obtain ⟨hen, hfwd, _⟩ := h.setting
  obtain ⟨mw, d, hm, hA⟩ := archOf_eq_ok h.arch
  cases he : s.idex with
  | none =>
    rw [(executeOut_empty (s := { s with snap := s.memwb }) he hx).2] at ht
    cases ht
  | some e =>
    obtain ⟨hpc, hseq⟩ := h.seqStep_eq he
    rw [executeOut_eq_arch h.inv hen hfwd he hm] at hx
    cases hx
    refine hseq.trans (archEffect_of_target (zf := s.zf) ?_)
    rw [hpc, hA]
    exact ht

/-- A step of a run that faults: the transfer in Execute goes to an index with bit 31 set, and sequential execution is at
that index one instruction later (R225). -/
theorem StandsFor.fault_cases {p : Params} {im : Store} {s u : State} {a : ArchState} {k : ErrorKind}
    (h : StandsFor p im s a) (hf : step s = .fault (.raised k u)) : seqRun p im 2 a = .fault k := by
  obtain ⟨mw, d, hm, _⟩ := archOf_eq_ok h.arch
  obtain ⟨x, hx⟩ := executeOut_isSome (s := { s with snap := s.memwb }) fun e he => (h.inv.idexCtrl e he).1
  rw [step_eq (step_fault_cases hf).1, hm, hx] at hf
  dsimp only at hf
  cases hp : (afterDecode s (afterExecute s x.target)).2.1.msb with
  | false => rw [hp] at hf; cases hf
  | true =>
    rw [hp, if_pos rfl] at hf
    cases hf
    obtain ⟨t, ht, hmsb⟩ := h.inv.target_of_msb (h.imem ▸ h.short) hp
    rw [seqRun_succ_of_next (h.seqStep_of_target hx ht)]
    refine seqRun_succ_of_fault ?_ 0
    rw [seqStep, if_pos hmsb]

/-! Runs that end. -/

theorem safeRun_zero {s t : State} (h : SafeRun 0 s t) : t = s := by
  cases h
  rfl

/-- No run that is safe goes past a state about to raise. -/
theorem AboutToRaise.not_halts {s t : State} {k : ErrorKind} (h : AboutToRaise s k) {n : Nat} (hrun : SafeRun n s t) :
    t.halted = false := by
  cases n with
  | zero =>
    rw [safeRun_zero hrun]
    exact (halted_of_running h.running).1
  | succ n =>
    obtain ⟨v, hv, _⟩ := safeRun_succ hrun
    obtain ⟨u, hu⟩ := h.raises
    rw [hu] at hv
    cases hv

theorem AboutToRaise.run_fault {s t : State} {k k' : ErrorKind} (h : AboutToRaise s k) {n : Nat}
    (hrun : Host.Core.run Sys2Proof.core n s = .fault (.raised k' t)) : k' = k := by
  cases n with
  | zero => cases hrun
  | succ n =>
    obtain ⟨u, hu⟩ := h.raises
    rw [run_succ_of_fault hu] at hrun
    cases hrun
    rfl

/-- A halted state of a run is the end of sequential execution. -/
theorem StandsFor.ended {p : Params} {im : Store} {s : State} {a : ArchState} (h : StandsFor p im s a)
    (hh : s.halted = true) :
    seqRun p im 1 a = .ended ⟨s.regs, s.dmem, s.pc⟩ := by
  have harch := h.arch
  rw [archOf_of_drained (h.inv.haltedDrained hh)] at harch
  cases harch
  refine seqRun_succ_of_ended ?_ 0
  rw [seqStep, if_neg (by simp [h.inv.pcLow (h.imem ▸ h.short)]), h.haltedAt hh]

theorem StandsFor.run_halts {n : Nat} {p : Params} {im : Store} {s t : State} {a : ArchState}
    (h : StandsFor p im s a) (hrun : SafeRun n s t) (hh : t.halted = true) : ∃ m, seqRun p im m a = .ended ⟨t.regs, t.dmem, t.pc⟩ := by
  induction n generalizing s a with
  | zero =>
    rw [safeRun_zero hrun] at hh ⊢
    exact ⟨1, h.ended hh⟩
  | succ n ih =>
    obtain ⟨u, hu, hrest⟩ := safeRun_succ hrun
    cases hs : s.halted with
    | true =>
      rw [step_of_stopped ((stopped_iff s).mpr (.inl hs))] at hu
      cases hu
      exact ih h hrest
    | false =>
      rcases h.next_cases hs hu with ⟨_, hu⟩ | ⟨b, _, hb, hu⟩ | ⟨k, _, _, hu⟩
      · exact ih hu hrest
      · obtain ⟨m, hm⟩ := ih hu hrest
        exact ⟨m + 1, (seqRun_succ_of_next hb m).trans hm⟩
      · rw [hu.not_halts hrest] at hh
        cases hh

theorem StandsFor.run_fault {n : Nat} {p : Params} {im : Store} {s t : State} {a : ArchState} {k : ErrorKind}
    (h : StandsFor p im s a) (hrun : Host.Core.run Sys2Proof.core n s = .fault (.raised k t)) : ∃ m, seqRun p im m a = .fault k := by
  induction n generalizing s a with
  | zero => cases hrun
  | succ n ih =>
    cases hu : step s with
    | fault r =>
      rw [run_succ_of_fault hu] at hrun
      cases hrun
      exact ⟨2, h.fault_cases hu⟩
    | refused r =>
      exact absurd hu (noStepIsRefused s r)
    | next u =>
      rw [run_succ_of_next hu] at hrun
      cases hs : s.halted with
      | true =>
        rw [step_of_stopped ((stopped_iff s).mpr (.inl hs))] at hu
        cases hu
        exact ih h hrun
      | false =>
        rcases h.next_cases hs hu with ⟨_, hu⟩ | ⟨b, _, hb, hu⟩ | ⟨k', _, hk, hu⟩
        · exact ih hu hrun
        · obtain ⟨m, hm⟩ := ih hu hrun
          exact ⟨m + 1, (seqRun_succ_of_next hb m).trans hm⟩
        · rw [hu.run_fault hrun]
          exact ⟨1, seqRun_succ_of_fault hk 0⟩

/-- Settles O56: every step of the run is an instruction of sequential execution or none, up to the halt or the error. -/
theorem pipelineRunsEndAsSequentialOnes : Obligations.PipelineRunsEndAsSequentialOnes :=
  fun _ _ hs hset =>
    ⟨fun _ hrun hh => (hs.standsFor hset).run_halts hrun hh, fun _ _ hrun => (hs.standsFor hset).run_fault hrun⟩

/-! That the pipeline comes to its end: where nothing is in Execute, an instruction reaches it within two steps, or the core
drains within two. -/

/-- Some run from `s` halts or faults. -/
def Ends (s : State) : Prop :=
  ∃ n, (∃ t, SafeRun n s t ∧ t.halted = true) ∨ ∃ r, Host.Core.run Sys2Proof.core n s = .fault r

theorem ends_of_halted {s : State} (h : s.halted = true) : Ends s := ⟨0, .inl ⟨s, rfl, h⟩⟩

/-- A core comes to its end if the state after each step it can take does. -/
theorem ends_of_next {s : State} (h : ∀ t, step s = .next t → Ends t) : Ends s := by
  rcases step_next_or_fault s with ⟨t, ht⟩ | ⟨k, t, ht⟩
  · obtain ⟨n, ⟨u, hu, hh⟩ | ⟨r, hr⟩⟩ := h t ht
    · exact ⟨n + 1, .inl ⟨u, (run_succ_of_next ht n).trans hu, hh⟩⟩
    · exact ⟨n + 1, .inr ⟨r, (run_succ_of_next ht n).trans hr⟩⟩
  · exact ⟨1, .inr ⟨_, run_succ_of_fault ht 0⟩⟩

theorem AboutToRaise.ends {s : State} {k : ErrorKind} (h : AboutToRaise s k) : Ends s := by
  obtain ⟨u, hu⟩ := h.raises
  exact ends_of_next fun t ht => by rw [hu] at ht; cases ht

/-- A step with nothing in Execute: what it leaves in the latches (R145, R154, R155). -/
theorem step_of_idex_none {s t : State} (hr : stopped s = false) (he : s.idex = none) (ht : step s = .next t) :
    t.exmem = none ∧ t.memwb.isSome = s.exmem.isSome ∧
      (∀ f, s.ifid = some f → ∃ e, t.idex = some e) ∧
      (s.ifid = none → t.idex = none ∧ t.ifid = fetchAt s.imem s.pc ∧ t.pc = pcAfterFetch s.imem s.pc) ∧
      (t.halted = (t.ifid.isNone && t.idex.isNone && t.exmem.isNone && t.memwb.isNone)) := by
  obtain ⟨mw, d, x, hm, hx, _, rfl⟩ := step_next_parts hr ht
  obtain ⟨hxm, htarget⟩ := executeOut_empty (s := { s with snap := s.memwb }) he hx
  refine ⟨hxm, ?_, ?_, ?_, by simp [cycleEnd, (halted_of_running hr).1]⟩
  · rcases memoryOut_eq_ok hm with ⟨hn, rfl, _⟩ | ⟨m, v, hsome, _, _, rfl⟩
    · rw [show s.exmem = none from hn]
      rfl
    · rw [show s.exmem = some m from hsome]
      rfl
  · intro f hf
    have hz : hazard s f.instr (decodeCtrl f.instr.opcode) = false := by simp [hazard, he]
    exact ⟨decodeOf f (completeMemWb s.memwb s.regs), by simp [cycleEnd, htarget, afterExecute, afterDecode, hf, hz]⟩
  · intro hf
    simp [cycleEnd, htarget, afterExecute, afterDecode, hf]

/-- The end of a drain: only the Memory→Writeback latch may still be occupied. -/
theorem ends_of_drained_but_memwb {s : State} (hr : stopped s = false) (he : s.idex = none) (hf : s.ifid = none)
    (habsent : slotAt s.imem s.pc = none) (hm : s.exmem = none) : Ends s := by
  refine ends_of_next fun t ht => ends_of_halted ?_
  obtain ⟨hxm, hmw, _, hfront, hhalt⟩ := step_of_idex_none hr he ht
  obtain ⟨hidex, hifid, _⟩ := hfront hf
  have hw : t.memwb = none := by simpa [hm] using hmw
  rw [hhalt, hxm, hw, hidex, hifid, fetchAt_of_absent habsent]
  rfl

section Reach

/-! Every state that stands for `a` with an instruction in Execute is taken to come to its end. -/

variable {p : Params} {im : Store} {s : State} {a : ArchState}
  (reach : ∀ s, StandsFor p im s a → s.halted = false → s.idex ≠ none → Ends s)

include reach

theorem StandsFor.ends_of_decoded (h : StandsFor p im s a) (hh : s.halted = false) (he : s.idex = none) {f : IfId}
    (hf : s.ifid = some f) : Ends s := by
  refine ends_of_next fun t ht => ?_
  obtain ⟨_, _, hdecoded, _, hhalt⟩ := step_of_idex_none (h.running hh) he ht
  obtain ⟨e, hidex⟩ := hdecoded f hf
  rcases h.next_cases hh ht with ⟨_, htA⟩ | ⟨_, hne, _⟩ | ⟨_, hne, _⟩
  · exact reach t htA (by simp [hhalt, hidex]) (by simp [hidex])
  · exact absurd he hne
  · exact absurd he hne

theorem StandsFor.ends_of_not_decoded (h : StandsFor p im s a) (hh : s.halted = false) (he : s.idex = none)
    (hf : s.ifid = none) : Ends s := by
  refine ends_of_next fun t ht => ?_
  obtain ⟨hxm, hmw, _, hfront, hhalt⟩ := step_of_idex_none (h.running hh) he ht
  obtain ⟨hidex, hifid, hpc⟩ := hfront hf
  rcases h.next_cases hh ht with ⟨_, htA⟩ | ⟨_, hne, _⟩ | ⟨_, hne, _⟩
  · cases hth : t.halted with
    | true => exact ends_of_halted hth
    | false =>
      cases hslot : slotAt s.imem s.pc with
      | some i =>
        rw [fetchAt_of_slot hslot] at hifid
        exact htA.ends_of_decoded reach hth hidex hifid
      | none =>
        rw [fetchAt_of_absent hslot] at hifid
        rw [pcAfterFetch_of_absent hslot] at hpc
        have habsent : slotAt t.imem t.pc = none := by rw [htA.imem, ← h.imem, hpc, hslot]
        exact ends_of_drained_but_memwb (htA.running hth) hidex hifid habsent hxm
  · exact absurd he hne
  · exact absurd he hne

theorem StandsFor.ends_of_reach (h : StandsFor p im s a) : Ends s := by
  cases hh : s.halted with
  | true => exact ends_of_halted hh
  | false =>
    cases he : s.idex with
    | some e => exact reach s h hh (by simp [he])
    | none =>
      cases hf : s.ifid with
      | some f => exact h.ends_of_decoded reach hh he hf
      | none => exact h.ends_of_not_decoded reach hh he hf

end Reach

/-- Where sequential execution ends or faults within `m` instructions, the pipeline comes to its end. -/
theorem StandsFor.ends {p : Params} {im : Store} {m : Nat} {s : State} {a : ArchState} (h : StandsFor p im s a)
    (hm : ∀ b, seqRun p im m a ≠ .next b) : Ends s := by
  induction m generalizing s a with
  | zero => exact absurd rfl (hm a)
  | succ m ih =>
    refine h.ends_of_reach fun u hu hh he => ends_of_next fun t ht => ?_
    rcases hu.next_cases hh ht with ⟨hne, _⟩ | ⟨b, _, hb, htB⟩ | ⟨k, _, _, hraise⟩
    · exact absurd hne he
    · exact ih htB fun c => seqRun_succ_of_next hb m ▸ hm c
    · exact hraise.ends

/-- The end that the pipeline comes to is that of sequential execution, whose outcome is one. -/
theorem StandsFor.end_of_seqRun {p : Params} {im : Store} {m : Nat} {s : State} {a : ArchState}
    (h : StandsFor p im s a) (hm : ∀ b, seqRun p im m a ≠ .next b) :
    (∃ n t, SafeRun n s t ∧ t.halted = true ∧ seqRun p im m a = .ended ⟨t.regs, t.dmem, t.pc⟩) ∨
    (∃ n k t, Host.Core.run Sys2Proof.core n s = .fault (.raised k t) ∧ seqRun p im m a = .fault k) := by
  obtain ⟨n, ⟨t, ht, hh⟩ | ⟨⟨k, t⟩, hr⟩⟩ := h.ends hm
  · obtain ⟨m', hm'⟩ := h.run_halts ht hh
    exact .inl ⟨n, t, ht, hh, (seqRun_unique hm fun b hb => by rw [hb] at hm'; cases hm').trans hm'⟩
  · obtain ⟨m', hm'⟩ := h.run_fault hr
    exact .inr ⟨n, k, t, hr, (seqRun_unique hm fun b hb => by rw [hb] at hm'; cases hm').trans hm'⟩

/-- Settles O57: the pipeline comes to its end, and that is the end of sequential execution by O56's argument. -/
theorem sequentialEndsAreReachedByThePipeline : Obligations.SequentialEndsAreReachedByThePipeline := by
  intro s m hs hset
  have end_of := fun hm => (hs.standsFor hset).end_of_seqRun (m := m) hm
  refine ⟨fun a ha => ?_, fun k hk => ?_⟩
  · rcases end_of (by simp [ha]) with ⟨n, t, ht, hh, heq⟩ | ⟨n, k, t, _, heq⟩
    · rw [ha] at heq
      cases heq
      exact ⟨n, t, ht, hh, rfl, rfl, rfl⟩
    · rw [ha] at heq; cases heq
  · rcases end_of (by simp [hk]) with ⟨n, t, _, _, heq⟩ | ⟨n, k', t, ht, heq⟩
    · rw [hk] at heq; cases heq
    · rw [hk] at heq
      cases heq
      exact ⟨n, t, ht⟩

end Sys2Proof.Machine

/-! PROOFS. Straight-line programs: obligation O58 (41_pipeline.md R160, 70_reset_and_hazards.md R270). -/

namespace Sys2Proof.Machine

/-- The ten opcodes of 42_arith_logic.md. -/
abbrev arithLogic : List Opcode := [.ADD, .SUB, .AND, .OR, .XOR, .SLT, .SLL, .SRL, .ADDI, .ORI]

/-- Their rows reach no memory and take no transfer (R111). -/
theorem decodeCtrl_arithLogic : ∀ op ∈ arithLogic,
    (decodeCtrl op).memRead = false ∧ (decodeCtrl op).memWrite = false ∧ (decodeCtrl op).branch = false ∧
      (decodeCtrl op).jump = false := by decide

theorem slotAt_map_some (prog : List Instr) (k : Word) : slotAt (prog.map some) k = prog[k.toNat]? := by
  rw [slotAt, List.getElem?_map]
  cases prog[k.toNat]? <;> rfl

/-! The stages of a core that holds arithmetic and logic alone. -/

theorem memoryOut_of_rows_pass {s : State}
    (h : ∀ m, s.exmem = some m → m.ctrl.memRead = false ∧ m.ctrl.memWrite = false) :
    ∃ mw, memoryOut s = .ok (mw, s.dmem) ∧ mw.isSome = s.exmem.isSome := by
  cases hm : s.exmem with
  | none => exact ⟨none, memoryOut_of_none hm, rfl⟩
  | some m => exact ⟨_, memoryOut_of_passes hm (h m hm).1 (h m hm).2, rfl⟩

theorem executeOut_of_no_transfer {s : State} (h : ∀ e, s.idex = some e → e.ctrl = decodeCtrl e.instr.opcode ∧
      e.imm = e.instr.imm ∧ (decodeCtrl e.instr.opcode).branch = false ∧ (decodeCtrl e.instr.opcode).jump = false) :
    ∃ x, executeOut s = some x ∧ x.exmem.isSome = s.idex.isSome ∧ x.target = none := by
  cases he : s.idex with
  | none => exact ⟨_, executeOut_of_none he, rfl, rfl⟩
  | some e =>
    obtain ⟨hctrl, himm, hb, hj⟩ := h e he
    exact ⟨_, executeOut_of_carries he hctrl himm, rfl, unitTarget_of_no_transfer _ _ _ _ _ hj hb⟩

theorem hazard_of_no_load {s : State} (h : ∀ e, s.idex = some e → e.ctrl.memRead = false) (i : Instr) (c : Ctrl) :
    hazard s i c = false := by
  cases he : s.idex with
  | none => simp [hazard, he]
  | some e => simp [hazard, he, h e he]

theorem afterDecode_of_no_load {s : State} (h : ∀ e, s.idex = some e → e.ctrl.memRead = false) :
    (afterDecode s (afterExecute s none)).1.isSome = s.ifid.isSome ∧
      (afterDecode s (afterExecute s none)).2 = (s.pc, s.stalls) := by
  rcases afterDecode_cases s none with ⟨t, ht, _⟩ | ⟨_, hf, hd⟩ | ⟨f, _, _, hz, _⟩ | ⟨f, _, hf, _, hd⟩
  · cases ht
  · simp [hd, hf]
  · rw [hazard_of_no_load h] at hz; cases hz
  · simp [hd, hf]

/-- A step of a running core that holds arithmetic and logic alone: every instruction moves on by one stage, and the next
one is fetched. -/
theorem step_of_arithLogic {s : State} (h : PipeInv s) (hr : stopped s = false) (hpc : s.pc.msb = false)
    (hrow : ∀ i k, slotAt s.imem k = some i → i.opcode ∈ arithLogic) :
    ∃ t, step s = .next t ∧ t.ifid = fetchAt s.imem s.pc ∧ t.pc = pcAfterFetch s.imem s.pc ∧
      t.idex.isSome = s.ifid.isSome ∧ t.exmem.isSome = s.idex.isSome ∧ t.memwb.isSome = s.exmem.isSome ∧
      t.imem = s.imem ∧ t.fault = s.fault ∧ t.cycle = s.cycle + 1 ∧ t.stalls = s.stalls ∧
      t.halted = (t.ifid.isNone && t.idex.isNone && t.exmem.isNone && t.memwb.isNone) := by
  have rowM := fun m hm => decodeCtrl_arithLogic _ (hrow _ _ (h.exmemSlot m hm))
  have rowE := fun e he => decodeCtrl_arithLogic _ (hrow _ _ (h.idexSlot e he))
  obtain ⟨mw, hm, hmw⟩ := memoryOut_of_rows_pass (s := { s with snap := s.memwb }) fun m hm => by
    obtain ⟨hload, hstore, _⟩ := rowM m hm
    rw [(h.exmemCtrl m hm).1]
    exact ⟨hload, hstore⟩
  obtain ⟨x, hx, hxm, htarget⟩ := executeOut_of_no_transfer (s := { s with snap := s.memwb }) fun e he => by
    obtain ⟨_, _, hb, hj⟩ := rowE e he
    exact ⟨(h.idexCtrl e he).1, h.idexImm e he, hb, hj⟩
  obtain ⟨hidex, hfront⟩ := afterDecode_of_no_load (s := s) fun e he => by
    rw [(h.idexCtrl e he).1]
    exact (rowE e he).1
  refine ⟨_, step_of_parts hr hm hx (by rw [htarget, hfront]; exact hpc), ?_⟩
  simp [cycleEnd, htarget, hfront, hidex, hxm, hmw, (halted_of_running hr).1]

/-- The state `j` steps into a straight-line program that started at cycle `c` with `q` stalls: which latches are occupied. -/
structure StraightAt (prog : List Instr) (c q j : Nat) (s : State) : Prop where
  inv : PipeInv s
  imem : s.imem = prog.map some
  noFault : s.fault = none
  pc : s.pc.toNat = min j prog.length
  ifid : s.ifid.isSome = decide (1 ≤ j ∧ j ≤ prog.length)
  idex : s.idex.isSome = decide (2 ≤ j ∧ j ≤ prog.length + 1)
  exmem : s.exmem.isSome = decide (3 ≤ j ∧ j ≤ prog.length + 2)
  memwb : s.memwb.isSome = decide (4 ≤ j ∧ j ≤ prog.length + 3)
  halted : s.halted = decide (prog.length + 4 ≤ j)
  cycle : s.cycle = c + j
  stalls : s.stalls = q

theorem fetchAt_map_some (prog : List Instr) (k : Word) :
    (fetchAt (prog.map some) k).isSome = decide (k.toNat < prog.length) := by
  rw [fetchAt, slotAt_map_some, Option.isSome_map]
  by_cases hk : k.toNat < prog.length <;> simp [hk]

theorem pcAfterFetch_map_some {prog : List Instr} (hl : prog.length < maxProgLen) {j : Nat} {k : Word}
    (hk : k.toNat = min j prog.length) : (pcAfterFetch (prog.map some) k).toNat = min (j + 1) prog.length := by
  have hl : prog.length < 2 ^ 31 := hl
  rw [pcAfterFetch, slotAt_map_some]
  by_cases hj : j < prog.length
  · have hlt : k.toNat < prog.length := by omega
    rw [List.getElem?_eq_getElem hlt, Option.isSome_some, if_pos rfl, BitVec.toNat_add,
      show (1 : Word).toNat = 1 from rfl]
    omega
  · rw [List.getElem?_eq_none (by omega), Option.isSome_none, if_neg Bool.false_ne_true]
    omega

/-- One step of a straight-line program. -/
theorem StraightAt.next {prog : List Instr} {c q j : Nat} {s : State} (h : StraightAt prog c q j s)
    (hl : prog.length < maxProgLen)
    (hrow : ∀ i ∈ prog, i.opcode ∈ arithLogic) (hne : prog ≠ []) (hj : j < prog.length + 4) :
    ∃ t, step s = .next t ∧ StraightAt prog c q (j + 1) t := by
  have hpos : 0 < prog.length := List.length_pos_of_ne_nil hne
  have hr : stopped s = false := stopped_eq_false (by rw [h.halted]; simpa using hj) h.noFault
  have hlen : s.imem.length < maxProgLen := by rw [h.imem, List.length_map]; exact hl
  obtain ⟨t, ht, hifid, hpc, hidex, hexmem, hmemwb, himem, hfault, hcycle, hstalls, hhalted⟩ :=
    step_of_arithLogic h.inv hr (h.inv.pcLow hlen) fun i k hk => by
      rw [h.imem, slotAt_map_some] at hk
      exact hrow i (List.mem_of_getElem? hk)
  have occupied : t.ifid.isSome = decide (1 ≤ j + 1 ∧ j + 1 ≤ prog.length) := by
    rw [hifid, h.imem, fetchAt_map_some, h.pc, decide_eq_decide]
    omega
  refine ⟨t, ht, ?_⟩
  constructor
  case inv => exact stepKeepsPipelineInvariant s t h.inv ht
  case imem => rw [himem, h.imem]
  case noFault => rw [hfault, h.noFault]
  case pc => rw [hpc, h.imem, pcAfterFetch_map_some hl h.pc]
  case ifid => exact occupied
  case idex => rw [hidex, h.ifid, decide_eq_decide]; omega
  case exmem => rw [hexmem, h.idex, decide_eq_decide]; omega
  case memwb => rw [hmemwb, h.exmem, decide_eq_decide]; omega
  case halted =>
    rw [Bool.eq_iff_iff]
    simp only [hhalted, ← Option.not_isSome, occupied, hidex, hexmem, hmemwb, h.ifid, h.idex, h.exmem,
      Bool.and_eq_true, Bool.not_eq_true', decide_eq_true_eq, decide_eq_false_iff_not]
    omega
  case cycle => rw [hcycle, h.cycle, Nat.add_assoc]
  case stalls => rw [hstalls, h.stalls]

theorem RunStart.straightAt {s : State} {prog : List Instr} (h : RunStart s) (hpc : s.pc = 0)
    (him : s.imem = prog.map some) : StraightAt prog s.cycle s.stalls 0 s := by
  obtain ⟨hf, he, hm, hw⟩ := (drained_iff s).mp h.empty
  obtain ⟨hhalted, hfault⟩ := halted_of_running h.running
  constructor <;> simp [h.pipeInv, him, hfault, hpc, hf, he, hm, hw, hhalted]

/-- The state after `j` steps, up to the halt. -/
theorem StraightAt.run {prog : List Instr} {c q j : Nat} {s : State} (h : StraightAt prog c q j s)
    (hl : prog.length < maxProgLen)
    (hrow : ∀ i ∈ prog, i.opcode ∈ arithLogic) (hne : prog ≠ []) {n : Nat} (hn : j + n ≤ prog.length + 4) :
    ∃ t, SafeRun n s t ∧ StraightAt prog c q (j + n) t := by
  induction n generalizing j s with
  | zero => exact ⟨s, rfl, h⟩
  | succ n ih =>
    obtain ⟨u, hu, hA⟩ := h.next hl hrow hne (by omega)
    obtain ⟨t, ht, hB⟩ := ih hA (by omega)
    exact ⟨t, (run_succ_of_next hu n).trans ht, by rwa [Nat.add_right_comm] at hB⟩

/-- Settles O58: the instructions move on together, so the latches empty four cycles after the last fetch. -/
theorem straightLineProgramHaltsAfterFourMoreCycles : Obligations.StraightLineProgramHaltsAfterFourMoreCycles := by
  intro s prog hs hpc him hrow hne
  have hl : prog.length < maxProgLen := by
    have := hs.progLen
    rwa [him, List.length_map] at this
  have run := fun n hn => (hs.straightAt hpc him).run hl hrow hne (n := n) (by rwa [Nat.zero_add])
  constructor
  · obtain ⟨t, ht, hA⟩ := run (prog.length + 4) (Nat.le_refl _)
    rw [Nat.zero_add] at hA
    exact ⟨t, ht, by rw [hA.halted]; simp, hA.cycle, hA.stalls⟩
  · intro n t hn ht
    obtain ⟨t', ht', hA⟩ := run n hn.le
    cases ht.symm.trans ht'
    rw [hA.halted]
    simpa using hn

end Sys2Proof.Machine

/-! PROOFS. Addresses, memories, the arithmetic unit's numbers, reset, and where operands come from: obligations O8, O9, O11,
O13 to O16. -/

namespace Sys2Proof.Machine

theorem addrRefused_iff (p : Params) (a : Word) :
    addrRefused p a = true ↔ a.msb = true ∨ p.memWords ≤ a.toNat / 4 := by
  rw [addrRefused, wordIndex_eq, Bool.or_eq_true, decide_eq_true_eq]

theorem addrRefused_eq_false {p : Params} {a : Word} (hm : a.msb = false) (ha : a.toNat / 4 < p.memWords) :
    addrRefused p a = false := by
  rw [Bool.eq_false_iff, ne_eq, addrRefused_iff]
  rintro (h | h)
  · rw [hm] at h; cases h
  · omega

theorem memRead_of_refused {p : Params} (m : Memory) {a : Word} (h : addrRefused p a = true) :
    memRead p m a = .error .memoryOutOfBounds := if_pos h

/-- Settles O8: the refused addresses are those of R53, and the word index is the quotient by 4. -/
theorem addressesAreBoundedAndTruncated : Obligations.AddressesAreBoundedAndTruncated := by
  refine ⟨fun p m a v h => ?_, fun p m a v hm ha => ?_, fun k j hj hk => ?_⟩
  · have hr := (addrRefused_iff p a).mpr h
    exact ⟨memRead_of_refused m hr, memWrite_of_refused m v hr⟩
  · have hr := addrRefused_eq_false hm ha
    exact ⟨memRead_of_not_refused m hr, memWrite_of_not_refused m v hr⟩
  · rw [wordIndex_eq, BitVec.toNat_ofNat]
    omega

/-! Canonical memories. -/

/-- The first cell of a sorted memory is found at its own index, and nothing is below it. -/
theorem memGet_head {lo : Option Nat} {j : Nat} {v : Word} {m : Memory} (h : memSortedAbove lo ((j, v) :: m) = true) :
    memGet ((j, v) :: m) j = v ∧ v ≠ memDefault ∧ memSortedAbove (some j) m = true ∧
      ∀ k < j, memGet ((j, v) :: m) k = memDefault := by
  simp only [memSortedAbove, Bool.and_eq_true, bne_iff_ne] at h
  obtain ⟨⟨_, hv⟩, hm⟩ := h
  refine ⟨by simp [memGet], hv, hm, fun k hk => ?_⟩
  rw [memGet, if_neg (by omega)]
  exact memGet_of_sortedAbove hm hk.le

/-- Sorted memories that read alike above a common bound are equal: their first cells have to agree. -/
theorem memory_ext_of_sorted {lo lo' : Option Nat} {m n : Memory} (hm : memSortedAbove lo m = true)
    (hn : memSortedAbove lo' n = true) (h : ∀ k, memGet m k = memGet n k) : m = n := by
  induction m generalizing lo lo' n with
  | nil =>
    cases n with
    | nil => rfl
    | cons c n =>
      obtain ⟨hget, hv, _⟩ := memGet_head hn
      exact absurd (hget.symm.trans (h c.1).symm) hv
  | cons c m ih =>
    obtain ⟨j, v⟩ := c
    obtain ⟨hget, hv, hm', hlow⟩ := memGet_head hm
    cases n with
    | nil => exact absurd (hget.symm.trans (h j)) hv
    | cons d n =>
      obtain ⟨i, w⟩ := d
      obtain ⟨hget', hw, hn', hlow'⟩ := memGet_head hn
      have hji : j = i := by
        rcases Nat.lt_trichotomy j i with hlt | heq | hlt
        · exact absurd (hget.symm.trans ((h j).trans (hlow' j hlt))) hv
        · exact heq
        · exact absurd (hget'.symm.trans ((h i).symm.trans (hlow i hlt))) hw
      subst hji
      have hvw : v = w := hget.symm.trans ((h j).trans hget')
      subst hvw
      refine congrArg _ (ih hm' hn' fun k => ?_)
      by_cases hk : k ≤ j
      · rw [memGet_of_sortedAbove hm' hk, memGet_of_sortedAbove hn' hk]
      · have hk' := h k
        rwa [memGet, memGet, if_neg (by omega), if_neg (by omega)] at hk'

/-- Settles O9: a canonical memory is sorted above no bound. -/
theorem canonicalMemoriesReadingAlikeAreEqual : Obligations.CanonicalMemoriesReadingAlikeAreEqual :=
  fun _ _ hm hn h => memory_ext_of_sorted hm hn h

/-! The arithmetic unit. -/

/-- Settles O11: the library's reading of each operation, with the shift count as a remainder. -/
theorem sumsDifferencesAndShifts : Obligations.SumsDifferencesAndShifts := by
  intro a b
  refine ⟨BitVec.toNat_add a b, ?_, ?_, ?_⟩
  · rw [aluResult, BitVec.toNat_sub, Nat.add_comm]
  · rw [aluResult, shiftCount_eq, BitVec.toNat_shiftLeft, Nat.shiftLeft_eq]
  · rw [aluResult, shiftCount_eq, BitVec.toNat_ushiftRight, Nat.shiftRight_eq_div_pow]

/-! Reset. -/

theorem regRead_reset (r : Reg) : regRead State.reset.regs r = 0 := by
  by_cases hr : r = 0
  · rw [hr, regRead_zero]
  · rw [regRead_of_ne _ hr]
    exact Vector.getElem_replicate r.isLt

/-- Settles O13: a fresh register file reads 0 everywhere, and the other fields are `State.reset`'s own. -/
theorem resetEstablishesTheTable : Obligations.ResetEstablishesTheTable :=
  ⟨regRead_reset, rfl, rfl, rfl, rfl, rfl, rfl, fun _ => rfl, rfl, rfl, rfl, rfl, rfl, rfl⟩

/-! Where operands come from. -/

theorem forward_of_not_fwdEn {s : State} (hf : s.fwdEn = false) {r : Reg} (hr : r ≠ 0) (v : Word) :
    forward s r v = v := by
  rw [forward, if_neg hr, hf, if_neg Bool.false_ne_true]

theorem exmemSource_of_writes {s : State} {m : ExMem} {r : Reg} (hm : s.exmem = some m) (hw : m.ctrl.regWrite = true)
    (hd : m.dest = r) (hr : m.ctrl.memRead = false) : exmemSource s.exmem r = some m.alu := by
  simp [exmemSource, hm, hw, hd, hr]

theorem exmemSource_eq_none {s : State} {r : Reg}
    (h : ∀ m, s.exmem = some m → m.ctrl.regWrite = false ∨ m.dest ≠ r ∨ m.ctrl.memRead = true) :
    exmemSource s.exmem r = none := by
  cases hm : s.exmem with
  | none => rfl
  | some m => rcases h m hm with h | h | h <;> simp [exmemSource, h]

theorem snapSource_of_writes {s : State} {w : MemWb} {r : Reg} (hs : s.snap = some w) (hw : w.ctrl.regWrite = true)
    (hd : w.dest = r) : snapSource s.snap r = some (wbval w) := by
  simp [snapSource, hs, hw, hd]

theorem snapSource_eq_none {s : State} {r : Reg}
    (h : ∀ w, s.snap = some w → w.ctrl.regWrite = false ∨ w.dest ≠ r) : snapSource s.snap r = none := by
  cases hs : s.snap with
  | none => rfl
  | some w => rcases h w hs with h | h <;> simp [snapSource, h]

/-- Settles O14: the two sources in their order. -/
theorem forwardingPriority : Obligations.ForwardingPriority := by
  intro s r v
  refine ⟨forward_zero s v, fun hr hf => forward_of_not_fwdEn hf hr v, ?_, fun hr hf hno => ⟨?_, ?_⟩⟩
  · intro hr hf m hm hw hd hload
    rw [forward_of_fwdEn hf hr, exmemSource_of_writes hm hw hd hload]
    rfl
  · intro w hs hw hd
    rw [forward_of_fwdEn hf hr, exmemSource_eq_none hno, snapSource_of_writes hs hw hd]
    rfl
  · intro hs
    rw [forward_of_fwdEn hf hr, exmemSource_eq_none hno, snapSource_eq_none hs]
    rfl

/-- Settles O15: the snapshot is asked only where the parameter, the toggle and the register let it. -/
theorem storeDataComesFromTheSnapshotOrTheLatch : Obligations.StoreDataComesFromTheSnapshotOrTheLatch := by
  intro s i m
  constructor
  · intro hp hf hr w hs hw hd
    simp only [storeData, hp, hf, bne_iff_ne.mpr hr, Bool.and_self, if_true, snapSource_of_writes hs hw hd]
    rfl
  · rintro (h | h | h | h)
    · simp [storeData, h]
    · simp [storeData, h]
    · simp [storeData, h]
    · simp [storeData, snapSource_eq_none h]

/-- The load-use check, with the latch and what is compared taken apart (R152). -/
theorem hazard_iff (s : State) (i : Instr) (c : Ctrl) :
    hazard s i c = true ↔ s.hazardEn = true ∧ ∃ e, s.idex = some e ∧ e.ctrl.memRead = true ∧ e.dest ≠ 0 ∧
      comparesWith s.params i c e.dest = true := by
  unfold hazard
  cases s.idex with
  | none => simp
  | some e => simp [and_assoc]

theorem readsRs_rtShamt_iff (op : Opcode) : readsRs .rtShamt op = true ↔ op ∉ [Opcode.SLL, .SRL, .J] := by
  cases op <;> decide

theorem readsRt_iff (op : Opcode) :
    readsRt op = true ↔ op ∈ [Opcode.ADD, .SUB, .AND, .OR, .XOR, .SLT, .SLL, .SRL, .BEQ] := by
  cases op <;> decide

/-- Settles O16: what is compared under either parameter is read off `comparesWith`. -/
theorem loadUseCheckIsExact : Obligations.LoadUseCheckIsExact := by
  refine ⟨fun s i c hp => ?_, fun s i c hp hso => ?_⟩
  · rw [hazard_iff]
    simp [comparesWith, hp]
  · rw [hazard_iff]
    simp only [comparesWith, hp, hso, Bool.false_eq_true, if_false, Bool.or_eq_true, Bool.and_eq_true, beq_iff_eq,
      readsRs_rtShamt_iff, readsRt_iff]

end Sys2Proof.Machine

/-! PROOFS. Fetch and Decode of every instruction: obligations O17 to O19 (41_pipeline.md R150 to R155). -/

namespace Sys2Proof.Machine

/-- Settles O17: in its phase `exec` is the Fetch stage. -/
theorem fetchStageDeliversEveryInstruction : Obligations.FetchStageDeliversEveryInstruction :=
  fun _ _ hp => exec_fetch hp

/-- Settles O18: of the three ways through Decode, the latch and the check leave one. -/
theorem decodeStageReadsOperands : Obligations.DecodeStageReadsOperands := by
  intro i s f hp hf hz
  rw [exec_decode hp]
  rcases decodeStage_cases i (decodeCtrl i.opcode) s with ⟨hn, _⟩ | ⟨_, _, hz', _⟩ | ⟨f', hf', _, hd⟩
  · rw [hf] at hn; cases hn
  · rw [hz] at hz'; cases hz'
  · rw [hf] at hf'
    cases hf'
    exact hd

/-- Settles O19: of the three ways through Decode, the latch and the check leave one. -/
theorem decodeStageStallsOnHazard : Obligations.DecodeStageStallsOnHazard := by
  intro i s f hp hf hz
  rw [exec_decode hp]
  rcases decodeStage_cases i (decodeCtrl i.opcode) s with ⟨hn, _⟩ | ⟨_, _, _, hd⟩ | ⟨_, _, hz', _⟩
  · rw [hf] at hn; cases hn
  · exact hd
  · rw [hz] at hz'; cases hz'

end Sys2Proof.Machine

/-! PROOFS. Execute, form by form: obligations O20 to O25 (41_pipeline.md R145 to R149, 42_arith_logic.md,
44_control_transfer.md). -/

namespace Sys2Proof.Machine

/-- Execute with a result: the latch, the flag, and a taken transfer. -/
theorem exec_execute_of_result {i : Instr} {s : State} {e : IdEx} {res : Word} {zf : Bool} (hp : s.phase = .execute)
    (he : s.idex = some e)
    (hd : driveUnit i (aluOpOf i.opcode) e (forward s i.rs e.a) (forward s i.rt e.b) s = some (res, zf)) :
    exec i s = .next (redirect (resolve i e.ctrl (forward s i.rs e.a) e.ipc e.imm zf) { s with
      zf := zf, exmem := some ⟨i, e.ipc, res, forward s i.rt e.b, e.dest, e.ctrl⟩ }) := by
  rw [exec_execute hp]
  rcases executeStage_cases i (aluOpOf i.opcode) s with ⟨hn, _⟩ | ⟨e', he', hj, hsel, _⟩ | ⟨e', res', zf', he', hd', hx⟩
  · rw [he] at hn; cases hn
  · rw [he] at he'
    cases he'
    rw [hsel] at hd
    simp [driveUnit, hj] at hd
  · rw [he] at he'
    cases he'
    rw [hd] at hd'
    cases hd'
    exact hx

/-- Execute of an instruction whose row takes no transfer. -/
theorem exec_execute_of_no_transfer {i : Instr} {s : State} {e : IdEx} {op : AluOp} (hp : s.phase = .execute)
    (he : s.idex = some e) (hj : e.ctrl.jump = false) (hb : e.ctrl.branch = false) (hop : aluOpOf i.opcode = some op) :
    let o := operands s.params.shiftOperands i e.ctrl (forward s i.rs e.a) (forward s i.rt e.b) e.imm
    exec i s = .next { s with
      zf := aluResult op o.1 o.2 == 0
      exmem := some ⟨i, e.ipc, aluResult op o.1 o.2, forward s i.rt e.b, e.dest, e.ctrl⟩ } := by
  intro o
  have hd : driveUnit i (aluOpOf i.opcode) e (forward s i.rs e.a) (forward s i.rt e.b) s =
      some (aluResult op o.1 o.2, aluResult op o.1 o.2 == 0) := by
    simp only [driveUnit, hj, hop, Bool.false_eq_true, if_false]
    rfl
  have hr : resolve i e.ctrl (forward s i.rs e.a) e.ipc e.imm (aluResult op o.1 o.2 == 0) = none := by
    simp [resolve, hj, hb]
  rw [exec_execute_of_result hp he hd, hr]
  rfl

/-- Settles O20: the row they share takes no transfer and selects the two forwarded operands. -/
theorem registerRegisterInExecute : Obligations.RegisterRegisterInExecute := by
  intro s rd rs rt e hp he hc
  obtain ⟨instr, ipc, a, b, imm, dest, ctrl⟩ := e
  cases hc
  have run := fun i {op} => exec_execute_of_no_transfer (i := i) (op := op) hp he rfl rfl
  exact ⟨run (.add rd rs rt) rfl, run (.sub rd rs rt) rfl, run (.and rd rs rt) rfl, run (.or rd rs rt) rfl,
    run (.xor rd rs rt) rfl, run (.slt rd rs rt) rfl⟩

/-- Settles O21: the operand selection decides what is shifted, and the count is the low five bits. -/
theorem shiftsInExecute : Obligations.ShiftsInExecute := by
  intro s rd rs rt sh e hp he hc
  obtain ⟨instr, ipc, a, b, imm, dest, ctrl⟩ := e
  cases hc
  have run := fun i {op} => exec_execute_of_no_transfer (i := i) (op := op) hp he rfl rfl
  have sll := run (.sll rd rs rt sh) rfl
  have srl := run (.srl rd rs rt sh) rfl
  constructor
  · intro hso
    rw [hso] at sll srl
    rw [← shiftCount_setWidth sh]
    exact ⟨sll, srl⟩
  · intro hso
    rw [hso] at sll srl
    rw [← shiftCount_eq]
    exact ⟨sll, srl⟩

/-- Settles O22: each row takes no transfer and selects the latched immediate. -/
theorem immediatesAndAddressesInExecute : Obligations.ImmediatesAndAddressesInExecute := by
  intro s rt rs imm e hp he
  obtain ⟨instr, ipc, a, b, imm', dest, ctrl⟩ := e
  refine ⟨?_, ?_, ?_, ?_⟩
  all_goals rintro rfl
  · exact exec_execute_of_no_transfer (i := .addi rt rs imm) hp he rfl rfl rfl
  · exact exec_execute_of_no_transfer (i := .ori rt rs imm) hp he rfl rfl rfl
  · exact exec_execute_of_no_transfer (i := .lw rt rs imm) hp he rfl rfl rfl
  · exact exec_execute_of_no_transfer (i := .sw rt rs imm) hp he rfl rfl rfl

theorem zeroFlag_sub (a b : Word) : zeroFlag (a - b) = decide (a = b) := by
  rw [zeroFlag, beq_zero_sub, beq_eq_decide]

/-- Settles O23: the difference is 0 exactly where the operands are equal. -/
theorem beqInExecute : Obligations.BeqInExecute := by
  intro s rs rt imm e hp he hc
  obtain ⟨instr, ipc, a, b, imm', dest, ctrl⟩ := e
  cases hc
  intro fa fb s'
  have hd : driveUnit (.beq rs rt imm) (some .sub) ⟨instr, ipc, a, b, imm', dest, ctrlBeq⟩ fa fb s =
      some (fa - fb, decide (fa = fb)) := by
    rw [← zeroFlag_sub]
    rfl
  rw [exec_execute_of_result hp he hd]
  show Host.Outcome.next (redirect (if decide (fa = fb) = true then some (ipc + 1 + imm') else none) s') = _
  by_cases h : fa = fb
  · rw [if_pos (decide_eq_true h), if_pos h]
    rfl
  · rw [if_neg (by simpa using h), if_neg h]
    rfl

/-- SLT against register 0 sets the zero flag where the operand is not negative (R212). -/
theorem aluResult_slt_zero (a : Word) :
    aluResult .slt a 0 = (if s32 a < 0 then 1 else 0) ∧ zeroFlag (aluResult .slt a 0) = decide (0 ≤ s32 a) := by
  have hres : aluResult .slt a 0 = if s32 a < 0 then 1 else 0 := rfl
  refine ⟨hres, ?_⟩
  rw [hres, zeroFlag]
  by_cases h : s32 a < 0
  · rw [if_pos h, decide_eq_false (not_le.mpr h)]
    rfl
  · rw [if_neg h, decide_eq_true (not_lt.mp h)]
    rfl

/-- Settles O24: the comparison with 0 sets the flag, and the operand's own sign decides the branch. -/
theorem bgezInExecute : Obligations.BgezInExecute := by
  intro s rs imm e hp he hc
  obtain ⟨instr, ipc, a, b, imm', dest, ctrl⟩ := e
  cases hc
  intro fa s'
  obtain ⟨hres, hzf⟩ := aluResult_slt_zero fa
  have hd : driveUnit (.bgez rs imm) (some .slt) ⟨instr, ipc, a, b, imm', dest, ctrlBgez⟩ fa 0 s =
      some (if s32 fa < 0 then 1 else 0, decide (0 ≤ s32 fa)) := by
    rw [← hres, ← hzf]
    rfl
  rw [exec_execute_of_result (i := .bgez rs imm) hp he hd]
  show Host.Outcome.next (redirect (if decide (0 ≤ s32 fa) = true then some (ipc + 1 + imm') else none) s') = _
  by_cases h : 0 ≤ s32 fa
  · rw [if_pos (decide_eq_true h), if_pos h]
    rfl
  · rw [if_neg (by simpa using h), if_neg h]
    rfl

/-- Settles O25: the jump flag of the latched row decides whether the unit is asked for J's operation. -/
theorem jumpInExecute : Obligations.JumpInExecute := by
  intro s addr e hp he
  constructor
  · intro hj
    have hd : driveUnit (.j addr) none e (forward s 0 e.a) (forward s 0 e.b) s = some (0, s.zf) := if_pos hj
    have hr : resolve (.j addr) e.ctrl (forward s 0 e.a) e.ipc e.imm s.zf = some addr := if_pos hj
    rw [exec_execute_of_result (i := .j addr) hp he hd]
    exact congrArg (fun target => Host.Outcome.next (redirect target _)) hr
  · intro hj
    rw [exec_execute hp]
    rcases executeStage_cases (.j addr) none s with ⟨hn, _⟩ | ⟨_, _, _, _, hx⟩ | ⟨e', _, _, he', hd, _⟩
    · rw [he] at hn; cases hn
    · exact hx
    · rw [he] at he'
      cases he'
      simp [driveUnit, hj] at hd

end Sys2Proof.Machine

/-! PROOFS. The Memory stage: obligations O26 and O27 (41_pipeline.md R140 to R144). -/

namespace Sys2Proof.Machine

/-- The Memory stage of the instruction its latch holds, from what it reads and writes. -/
theorem exec_memory_of_parts {i : Instr} {s : State} {m : ExMem} {v : Word} {d : Memory} (hp : s.phase = .memory)
    (hm : s.exmem = some m) (hl : loadedWord m s = .ok v) (hs : storedMemory i m s = .ok d) :
    exec i s = .next { s with dmem := d, memwb := some ⟨i, m.ipc, m.alu, v, m.dest, m.ctrl⟩ } := by
  rw [exec_memory hp]
  rcases memoryStage_cases i s with ⟨hn, _⟩ | ⟨m', hm', hc, ha, _⟩ | ⟨m', v', d', hm', hl', hs', hx⟩
  · rw [hm] at hn; cases hn
  · rw [hm] at hm'
    cases hm'
    rcases hc with hc | hc
    · simp [loadedWord, hc, memRead_of_refused _ ha] at hl
    · simp [storedMemory, hc, memWrite_of_refused _ _ ha] at hs
  · rw [hm] at hm'
    cases hm'
    rw [hl] at hl'
    rw [hs] at hs'
    cases hl'
    cases hs'
    exact hx

theorem loadedWord_of_not_memRead {m : ExMem} (s : State) (h : m.ctrl.memRead = false) : loadedWord m s = .ok 0 :=
  if_neg (ne_true_of_eq_false h)

theorem loadedWord_of_memRead {m : ExMem} {s : State} (h : m.ctrl.memRead = true)
    (ha : addrRefused s.params m.alu = false) : loadedWord m s = .ok (memGet s.dmem (m.alu.toNat / 4)) := by
  rw [loadedWord, if_pos h, memRead_of_not_refused _ ha]

theorem storedMemory_of_not_memWrite (i : Instr) {m : ExMem} (s : State) (h : m.ctrl.memWrite = false) :
    storedMemory i m s = .ok s.dmem := if_neg (ne_true_of_eq_false h)

theorem storedMemory_of_memWrite (i : Instr) {m : ExMem} {s : State} (h : m.ctrl.memWrite = true)
    (ha : addrRefused s.params m.alu = false) :
    storedMemory i m s = .ok (memSet s.dmem (m.alu.toNat / 4) (storeData s i m)) := by
  rw [storedMemory, if_pos h, memWrite_of_not_refused _ _ ha]

/-- LW and SW are the opcodes that reach memory (R111). -/
theorem accesses_iff (op : Opcode) :
    ((decodeCtrl op).memRead = true ∨ (decodeCtrl op).memWrite = true) ↔ op ∈ [Opcode.LW, .SW] := by
  cases op <;> decide

/-- Settles O26: a row decides whether the latch's address is loaded from, stored to, or passed on. -/
theorem memoryStageLoadsStoresAndPasses : Obligations.MemoryStageLoadsStoresAndPasses := by
  intro s m hp hm
  refine ⟨fun rt rs imm hc ha => ?_, fun rt rs imm hc ha => ?_, fun i hi hc => ?_⟩
  · exact exec_memory_of_parts hp hm (loadedWord_of_memRead (by rw [hc]; rfl) ha)
      (storedMemory_of_not_memWrite _ s (by rw [hc]; rfl))
  · exact exec_memory_of_parts hp hm (loadedWord_of_not_memRead s (by rw [hc]; rfl))
      (storedMemory_of_memWrite _ (by rw [hc]; rfl) ha)
  · rw [← accesses_iff, ← hc] at hi
    simp only [not_or, Bool.not_eq_true] at hi
    exact exec_memory_of_parts hp hm (loadedWord_of_not_memRead s hi.1) (storedMemory_of_not_memWrite i s hi.2)

/-- Settles O27: of the three ways through Memory, the row and the address leave one. -/
theorem memoryStageRaisesOutOfBounds : Obligations.MemoryStageRaisesOutOfBounds := by
  intro s m i hp hm hi hc ha
  rw [← addrRefused_iff] at ha
  rw [← accesses_iff, ← hc] at hi
  rw [exec_memory hp]
  rcases memoryStage_cases i s with ⟨hn, _⟩ | ⟨_, _, _, _, hx⟩ | ⟨m', v, d, hm', hl, hs, _⟩
  · rw [hm] at hn; cases hn
  · exact hx
  · rw [hm] at hm'
    cases hm'
    rcases hi with hi | hi
    · simp [loadedWord, hi, memRead_of_refused _ ha] at hl
    · simp [storedMemory, hi, memWrite_of_refused _ _ ha] at hs

end Sys2Proof.Machine

/-! PROOFS. What an instruction's stage can change, said once, and the frames that follow: obligations O29 to O32. -/

namespace Sys2Proof.Machine

/-- The next states of the stage that is running, one constructor for each thing a stage can do. -/
inductive StageEffect (i : Instr) (s : State) : State → Prop
  | fetch (hp : s.phase = .fetch) : StageEffect i s { s with ifid := some ⟨i, s.pc⟩, pc := s.pc + 1 }
  | decode (hp : s.phase = .decode) (l : Option IdEx) : StageEffect i s { s with idex := l }
  | stall (hp : s.phase = .decode) (hz : hazard s i (decodeCtrl i.opcode) = true) :
    StageEffect i s { s with idex := none, pc := s.pc - 1, stalls := s.stalls + 1 }
  | bubble (hp : s.phase = .execute) (he : s.idex = none) : StageEffect i s { s with exmem := none }
  | execute (hp : s.phase = .execute) (e : IdEx) (he : s.idex = some e) (zf : Bool)
    (hz : e.ctrl.jump = true → zf = s.zf) (l : Option ExMem) (target : Option Word)
    (ht : e.ctrl.jump = false → e.ctrl.branch = false → target = none) :
    StageEffect i s (redirect target { s with zf := zf, exmem := l })
  | pass (hp : s.phase = .memory) (l : Option MemWb) : StageEffect i s { s with memwb := l }
  | store (hp : s.phase = .memory) (m : ExMem) (hm : s.exmem = some m) (hw : m.ctrl.memWrite = true) (v : Word)
    (l : Option MemWb) : StageEffect i s { s with dmem := memSet s.dmem (wordIndex m.alu) v, memwb := l }
  | idle (hp : s.phase = .writeback) : StageEffect i s s
  | write (hp : s.phase = .writeback) (w : MemWb) (hm : s.memwb = some w) (hw : w.ctrl.regWrite = true) (v : Word) :
    StageEffect i s { s with regs := regWrite s.regs w.dest v }

theorem driveUnit_jump {i : Instr} {sel : Option AluOp} {e : IdEx} {fa fb : Word} {s : State} {res : Word} {zf : Bool}
    (h : driveUnit i sel e fa fb s = some (res, zf)) (hj : e.ctrl.jump = true) : zf = s.zf := by
  rw [driveUnit, if_pos hj] at h
  cases h
  rfl

theorem resolve_of_no_transfer {i : Instr} {c : Ctrl} {fa ipc imm : Word} {zf : Bool} (hj : c.jump = false)
    (hb : c.branch = false) : resolve i c fa ipc imm zf = none := by
  simp [resolve, hj, hb]

/-- The stage of an instruction, where it answers a next state, does one of these things. -/
theorem stageEffect_of_exec {i : Instr} {s t : State} (h : exec i s = .next t) : StageEffect i s t := by
  cases hp : s.phase
  case fetch =>
    rw [exec_fetch hp] at h
    cases h
    exact .fetch hp
  case decode =>
    rw [exec_decode hp] at h
    rcases decodeStage_cases i (decodeCtrl i.opcode) s with ⟨_, hd⟩ | ⟨f, _, hz, hd⟩ | ⟨f, _, _, hd⟩ <;>
      rw [hd] at h <;> cases h
    · exact .decode hp _
    · exact .stall hp hz
    · exact .decode hp _
  case execute =>
    rw [exec_execute hp] at h
    rcases executeStage_cases i (aluOpOf i.opcode) s with ⟨he, hx⟩ | ⟨_, _, _, _, hx⟩ | ⟨e, res, zf, he, hd, hx⟩ <;>
      rw [hx] at h
    · cases h
      exact .bubble hp he
    · exact absurd h (raise_ne_next _ _ _)
    · cases h
      exact .execute hp e he zf (driveUnit_jump hd) _ _ resolve_of_no_transfer
  case memory =>
    rw [exec_memory hp] at h
    rcases memoryStage_cases i s with ⟨_, hx⟩ | ⟨_, _, _, _, hx⟩ | ⟨m, v, d, hm, _, hs, hx⟩ <;> rw [hx] at h
    · cases h
      exact .pass hp _
    · exact absurd h (raise_ne_next _ _ _)
    · cases h
      rcases storedMemory_cases hs with ⟨_, rfl⟩ | ⟨hw, _, rfl⟩
      · exact .pass hp _
      · exact .store hp m hm hw _ _
  case writeback =>
    cases hm : s.memwb with
    | none =>
      rw [exec_writeback_of_none hp hm] at h
      cases h
      exact .idle hp
    | some w =>
      cases hw : w.ctrl.regWrite with
      | false =>
        rw [exec_writeback_of_not_regWrite hp hm hw] at h
        cases h
        exact .idle hp
      | true =>
        rw [exec_writeback_of_regWrite hp hm hw] at h
        cases h
        exact .write hp w hm hw _

/-- Settles O29: one effect writes a register. -/
theorem frameOfRegisters : Obligations.FrameOfRegisters := by
  intro i s t r h hno
  cases stageEffect_of_exec h
  case write hp w hm hw v => exact regRead_regWrite_ne _ _ (Ne.symm (hno w hp hm hw))
  case execute => rw [redirect_regs]
  all_goals rfl

/-- Settles O30: one effect writes a word. -/
theorem frameOfDataMemory : Obligations.FrameOfDataMemory := by
  intro i s t k h hno
  cases stageEffect_of_exec h
  case store hp m hm hw v l => exact memGet_memSet_ne _ _ (Ne.symm (hno m hp hm hw))
  case execute => rw [redirect_dmem]
  all_goals rfl

/-- Settles O31: the flag is Execute's, `pc` is changed by a fetch, a stall and a transfer, `stalls` by a stall. -/
theorem frameOfControlState : Obligations.FrameOfControlState := by
  intro i s t h
  cases stageEffect_of_exec h
  case execute hp e he zf hz l target ht =>
    refine ⟨fun hj => by rw [redirect_zf]; exact hz (hj e hp he), by simp [hp], by simp [hp], ?_, by simp, ?_⟩
    · intro e' _ he' hj hb
      rw [he] at he'
      cases he'
      rw [ht hj hb]
      rfl
    · simp
  case stall hp hz => simp [hp, hz]
  case fetch hp => simp [hp]
  all_goals simp

/-- Settles O32: each latch is set by the one stage that produces it, and emptied by a redirection. -/
theorem frameOfLatches : Obligations.FrameOfLatches := by
  intro i s t h
  cases stageEffect_of_exec h
  case execute hp e he zf hz l target ht =>
    cases target <;> simp [hp]
  all_goals simp [*]

end Sys2Proof.Machine

/-! PROOFS. What one step does to the counters, the labels and the front end: obligations O40 to O47 (41_pipeline.md R153 to
R165). -/

namespace Sys2Proof.Machine

/-- What every step keeps or counts, for a running core. -/
theorem step_fixed {s t : State} (hr : stopped s = false) (ht : step s = .next t) :
    t.cycle = s.cycle + 1 ∧ t.imem = s.imem ∧ t.params = s.params ∧ t.hazardEn = s.hazardEn ∧ t.fwdEn = s.fwdEn ∧
      t.fault = s.fault ∧ t.snap = s.memwb ∧ t.regs = completeMemWb s.memwb s.regs ∧
      t.halted = (t.ifid.isNone && t.idex.isNone && t.exmem.isNone && t.memwb.isNone) := by
  obtain ⟨mw, d, x, _, _, _, rfl⟩ := step_next_parts hr ht
  exact ⟨rfl, rfl, rfl, rfl, rfl, rfl, rfl, rfl, by simp [cycleEnd, (halted_of_running hr).1]⟩

/-- Settles O41: the halt check is the only thing that sets `halted` in a running core. -/
theorem haltedExactlyWhenDrained : Obligations.HaltedExactlyWhenDrained := by
  intro s t hr ht
  obtain ⟨_, _, _, _, _, _, _, _, hh⟩ := step_fixed hr ht
  simp [hh, and_assoc]

/-- Settles O42: a stopped core does not change at all. -/
theorem stepKeepsProgramAndConfiguration : Obligations.StepKeepsProgramAndConfiguration := by
  intro s t ht
  cases hr : stopped s
  case true =>
    rw [step_of_stopped hr] at ht
    cases ht
    exact ⟨rfl, rfl, rfl, rfl, rfl⟩
  case false =>
    obtain ⟨_, himem, hparams, hhz, hfwd, hfault, _⟩ := step_fixed hr ht
    exact ⟨himem, hparams, hhz, hfwd, hfault⟩

theorem label_of_memoryOut {s : State} {mw : Option MemWb} {d : Memory} (h : memoryOut s = .ok (mw, d)) :
    mw.map (fun l => (l.ipc, l.instr)) = s.exmem.map fun l => (l.ipc, l.instr) := by
  rcases memoryOut_eq_ok h with ⟨he, rfl, _⟩ | ⟨m, v, he, _, _, rfl⟩
  · rw [he]; rfl
  · rw [he]; rfl

theorem label_of_executeOut {s : State} {x : ExecuteOut} (h : executeOut s = some x) :
    x.exmem.map (fun l => (l.ipc, l.instr)) = s.idex.map fun l => (l.ipc, l.instr) := by
  rcases executeOut_eq_some h with ⟨he, rfl⟩ | ⟨e, res, he, hx, _⟩
  · rw [he]; rfl
  · rw [he, hx]; rfl

theorem label_of_afterDecode (s : State) (target : Option Word) :
    (afterDecode s (afterExecute s target)).1.map (fun l => (l.ipc, l.instr)) =
        s.ifid.map (fun l => (l.ipc, l.instr)) ∨
      (afterDecode s (afterExecute s target)).1.map (fun l => (l.ipc, l.instr)) = none := by
  cases h : (afterDecode s (afterExecute s target)).1 with
  | none => exact .inr rfl
  | some e =>
    obtain ⟨f, _, hf, _, rfl, _⟩ := afterDecode_eq_some h
    exact .inl (by rw [hf]; rfl)

/-- Settles O43: one lemma for each latch. -/
theorem instructionsFlowInOrder : Obligations.InstructionsFlowInOrder := by
  intro s t hr ht
  obtain ⟨mw, d, x, hm, hx, _, rfl⟩ := step_next_parts hr ht
  exact ⟨rfl, label_of_memoryOut (s := { s with snap := s.memwb }) hm,
    label_of_executeOut (s := { s with snap := s.memwb }) hx, label_of_afterDecode s x.target⟩

/-- The four ways a step of a running core leaves its front end (R153, R154, R157, R166). -/
theorem step_front_cases {s t : State} (hr : stopped s = false) (ht : step s = .next t) :
    ∃ x, executeOut { s with snap := s.memwb } = some x ∧ ∃ k,
      t.ifid = fetchAt s.imem k ∧ t.pc = pcAfterFetch s.imem k ∧
      ((x.target = some k ∧ t.idex = none ∧ t.stalls = s.stalls) ∨
       (x.target = none ∧ s.ifid = none ∧ k = s.pc ∧ t.idex = none ∧ t.stalls = s.stalls) ∨
       (∃ f, x.target = none ∧ s.ifid = some f ∧ hazard s f.instr (decodeCtrl f.instr.opcode) = true ∧
         k = s.pc - 1 ∧ t.idex = none ∧ t.stalls = s.stalls + 1) ∨
       (∃ f, x.target = none ∧ s.ifid = some f ∧ hazard s f.instr (decodeCtrl f.instr.opcode) = false ∧
         k = s.pc ∧ t.idex = some (decodeOf f t.regs) ∧ t.stalls = s.stalls)) := by
  obtain ⟨mw, d, x, _, hx, _, rfl⟩ := step_next_parts hr ht
  refine ⟨x, hx, _, rfl, rfl, ?_⟩
  rcases afterDecode_cases s x.target with ⟨k, hk, hd⟩ | ⟨hk, hf, hd⟩ | ⟨f, hk, hf, hz, hd⟩ | ⟨f, hk, hf, hz, hd⟩ <;>
    rw [hd]
  · exact .inl ⟨hk, rfl, rfl⟩
  · exact .inr (.inl ⟨hk, hf, rfl, rfl, rfl⟩)
  · exact .inr (.inr (.inl ⟨f, hk, hf, hz, rfl, rfl, rfl⟩))
  · exact .inr (.inr (.inr ⟨f, hk, hf, hz, rfl, rfl, rfl⟩))

/-- An instruction that a hazard is found against is a load, and a load takes no transfer (R111). -/
theorem target_eq_none_of_hazard {s : State} (h : PipeInv s) {i : Instr} {c : Ctrl} (hz : hazard s i c = true)
    {x : ExecuteOut} (hx : executeOut { s with snap := s.memwb } = some x) : x.target = none := by
  have load : ∀ op : Opcode, (decodeCtrl op).memRead = true →
      (decodeCtrl op).jump = false ∧ (decodeCtrl op).branch = false := by
    intro op
    cases op <;> decide
  obtain ⟨_, e, he, hload, _⟩ := (hazard_iff s i c).mp hz
  rcases executeOut_eq_some hx with ⟨hn, _⟩ | ⟨e', res, he', _, htarget⟩
  · rw [show s.idex = none from hn] at he; cases he
  · rw [show s.idex = some e' from he'] at he
    cases he
    rw [(h.idexCtrl _ he').1] at hload htarget
    obtain ⟨hj, hb⟩ := load _ hload
    rw [htarget, resolve_of_no_transfer hj hb]

/-- Settles O44: a stall fetches again what it holds. -/
theorem stallCycleHoldsFetchAndInsertsBubble : Obligations.StallCycleHoldsFetchAndInsertsBubble := by
  intro s t f hs hr hf hz ht
  obtain ⟨hback, _, hfetch, hpc⟩ := hs.refetch hf
  obtain ⟨x, hx, k, hifid, htpc, hcase⟩ := step_front_cases hr ht
  have htarget := target_eq_none_of_hazard hs hz hx
  rcases hcase with ⟨hk, _⟩ | ⟨_, hn, _⟩ | ⟨f', _, _, _, rfl, hidex, hst⟩ | ⟨f', _, hf', hz', _⟩
  · rw [htarget] at hk; cases hk
  · rw [hf] at hn; cases hn
  · rw [hback] at hifid htpc
    exact ⟨hidex, hifid.trans (hfetch.trans hf.symm), htpc.trans hpc, hst⟩
  · rw [hf] at hf'
    cases hf'
    rw [hz] at hz'; cases hz'

/-- Settles O40: the stall counter follows the check, since a transfer never meets a hazard. -/
theorem countersCountStepsAndHazards : Obligations.CountersCountStepsAndHazards := by
  intro s t hs hr ht
  refine ⟨(step_fixed hr ht).1, ?_⟩
  cases hf : s.ifid with
  | none =>
    obtain ⟨x, _, k, _, _, ⟨_, _, hst⟩ | ⟨_, _, _, _, hst⟩ | ⟨f, _, hf', _⟩ | ⟨f, _, hf', _⟩⟩ := step_front_cases hr ht
    · exact hst
    · exact hst
    · rw [hf] at hf'; cases hf'
    · rw [hf] at hf'; cases hf'
  | some f =>
    dsimp only
    cases hz : hazard s f.instr (decodeCtrl f.instr.opcode) with
    | true =>
      obtain ⟨_, _, _, hst⟩ := stallCycleHoldsFetchAndInsertsBubble s t f hs hr hf hz ht
      exact hst
    | false =>
      obtain ⟨x, _, k, _, _, ⟨_, _, hst⟩ | ⟨_, _, _, _, hst⟩ | ⟨f', _, hf', hz', _⟩ | ⟨_, _, _, _, _, _, hst⟩⟩ :=
        step_front_cases hr ht
      · exact hst
      · exact hst
      · rw [hf] at hf'
        cases hf'
        rw [hz] at hz'; cases hz'
      · exact hst

/-- A step that counts a stall starts from a hazard and leaves the Decode→Execute latch empty. -/
theorem stall_of_stalls_ne {s t : State} (ht : step s = .next t) (h : t.stalls ≠ s.stalls) :
    t.idex = none ∧ ∃ i c, hazard s i c = true := by
  cases hr : stopped s
  case true =>
    rw [step_of_stopped hr] at ht
    cases ht
    exact absurd rfl h
  case false =>
    obtain ⟨x, _, k, _, _, ⟨_, _, hst⟩ | ⟨_, _, _, _, hst⟩ | ⟨f, _, _, hz, _, hidex, _⟩ | ⟨_, _, _, _, _, _, hst⟩⟩ :=
      step_front_cases hr ht
    · exact absurd hst h
    · exact absurd hst h
    · exact ⟨hidex, _, _, hz⟩
    · exact absurd hst h

/-- Settles O45: after a stall there is no load in the Decode→Execute latch to stall for. -/
theorem noTwoStallsInARow : Obligations.NoTwoStallsInARow := by
  intro s t u ht hu hst
  obtain ⟨hidex, _⟩ := stall_of_stalls_ne ht hst
  by_contra hne
  obtain ⟨_, i, c, hz⟩ := stall_of_stalls_ne hu hne
  rw [hazard_of_no_load (fun e he => by rw [hidex] at he; cases he)] at hz
  cases hz

/-- Settles O46: a stall needs a hazard, and the check finds none with detection off. -/
theorem noStallsWithoutHazardDetection : Obligations.NoStallsWithoutHazardDetection := by
  intro s t hen ht
  by_contra hne
  obtain ⟨_, i, c, hz⟩ := stall_of_stalls_ne ht hne
  rw [hazard, hen, Bool.false_and] at hz
  cases hz

/-- Settles O47: the target is taken, so the front end is a fetch there and nothing is decoded. -/
theorem jumpFlushesOneSlot : Obligations.JumpFlushesOneSlot := by
  intro s t e addr hs hr he hj ht
  obtain ⟨x, hx, k, hifid, hpc, hcase⟩ := step_front_cases hr ht
  obtain ⟨hctrl, _⟩ := hs.idexCtrl e he
  rw [executeOut_of_carries (s := { s with snap := s.memwb }) he hctrl (hs.idexImm e he), hj] at hx
  cases hx
  rcases hcase with ⟨hk, hidex, hst⟩ | ⟨hk, _⟩ | ⟨_, hk, _⟩ | ⟨_, hk, _⟩ <;> cases hk
  exact ⟨hidex, hst, hifid, hpc⟩

end Sys2Proof.Machine

/-! PROOFS. The errors of a step: obligations O48 to O50 (60_exceptions.md R221 to R227). -/

namespace Sys2Proof.Machine

/-- Settles O48: Memory is asked before Execute and Fetch. -/
theorem oldestErrorIsReported : Obligations.OldestErrorIsReported := by
  intro s m hr hm hc ha
  rw [step_eq hr, memoryOut_of_refused (s := { s with snap := s.memwb }) hm hc ha]
  rfl

/-- A step of a running core whose Memory and Execute go on to a target with bit 31 set. -/
theorem step_of_target_msb {s : State} (hr : stopped s = false) {mw : Option MemWb} {d : Memory} {x : ExecuteOut}
    {k : Word} (hm : memoryOut { s with snap := s.memwb } = .ok (mw, d))
    (hx : executeOut { s with snap := s.memwb } = some x) (ht : x.target = some k) (hk : k.msb = true) :
    ∃ t, step s = .fault (.raised .invalidFetchAddress t) ∧ t.pc = k ∧ t.fault = some .invalidFetchAddress ∧
      t.halted = false := by
  rw [step_eq hr, hm, hx]
  simp only [ht, afterExecute, afterDecode, hk, if_true]
  exact ⟨_, rfl, rfl, rfl, (halted_of_running hr).1⟩

/-- Settles O49: both branches resolve to their target where they are taken, and nothing older raises. -/
theorem targetBelowIndexZeroRaises : Obligations.TargetBelowIndexZeroRaises := by
  intro s e hs hr he hno fwd hbranch hmsb
  have hmem : ∃ out, memoryOut { s with snap := s.memwb } = .ok out := by
    cases hm : memoryOut { s with snap := s.memwb } with
    | ok out => exact ⟨out, rfl⟩
    | error k =>
      obtain ⟨_, m, hxm, hc, ha⟩ := memoryOut_eq_error hm
      rw [hno m hxm hc] at ha
      cases ha
  obtain ⟨⟨mw, d⟩, hm⟩ := hmem
  have hx := executeOut_of_carries (s := { s with snap := s.memwb }) he (hs.idexCtrl e he).1 (hs.idexImm e he)
  refine step_of_target_msb hr hm hx ?_ hmsb
  rcases hbranch with ⟨rs, rt, imm, hi, heq⟩ | ⟨rs, imm, hi, hle⟩
  · simp only [hi, unitTarget_beq, Instr.rs, Instr.rt, Instr.imm]
    exact if_pos (beq_iff_eq.mpr heq)
  · simp only [hi, unitTarget_bgez, Instr.rs, Instr.imm]
    exact if_pos (decide_eq_true hle)

/-- Settles O50: Memory raises the one error, Fetch the other, and Execute none with its own row. -/
theorem onlyTwoErrorsAreReachable : Obligations.OnlyTwoErrorsAreReachable := by
  intro s t k hs ht
  have hr := (step_fault_cases ht).1
  obtain ⟨x, hx⟩ := executeOut_isSome (s := { s with snap := s.memwb }) fun e he => (hs.idexCtrl e he).1
  rw [step_eq hr, hx] at ht
  cases hm : memoryOut { s with snap := s.memwb } with
  | error k' =>
    rw [hm] at ht
    cases ht
    obtain ⟨rfl, m, hxm, hc, ha⟩ := memoryOut_eq_error hm
    rw [(hs.exmemCtrl m hxm).1, accesses_iff] at hc
    exact ⟨rfl, (halted_of_running hr).1, .inl ⟨rfl, m, hxm, hc, ha⟩⟩
  | ok out =>
    rw [hm] at ht
    dsimp only at ht
    cases hp : (afterDecode s (afterExecute s x.target)).2.1.msb with
    | false => rw [hp] at ht; cases ht
    | true =>
      rw [hp, if_pos rfl] at ht
      cases ht
      exact ⟨rfl, (halted_of_running hr).1, .inr ⟨rfl, hp⟩⟩

end Sys2Proof.Machine

/-! PROOFS. The form of the stored data is kept: obligation O52 (10_state.md R21, log entry 3). -/

namespace Sys2Proof.Machine

theorem completeMemWb_slot_zero (l : Option MemWb) (f : RegFile) : (completeMemWb l f)[0] = f[0] := by
  cases l with
  | none => rfl
  | some w =>
    rw [completeMemWb_some]
    split
    · exact regWrite_slot_zero f w.dest (wbval w)
    · rfl

/-- The memory a cycle leaves is the old one, or the old one with a word inside the capacity written. -/
theorem dmem_of_memoryOut {s : State} {mw : Option MemWb} {d : Memory} (h : memoryOut s = .ok (mw, d)) :
    d = s.dmem ∨ ∃ k v, k < s.params.memWords ∧ d = memSet s.dmem k v := by
  rcases memoryOut_eq_ok h with ⟨_, _, hd⟩ | ⟨m, v, _, _, hs, _⟩
  · exact .inl hd
  · rcases storedMemory_cases hs with ⟨_, hd⟩ | ⟨_, ha, hd⟩
    · exact .inl hd
    · refine .inr ⟨wordIndex m.alu, _, ?_, hd⟩
      simp only [addrRefused, Bool.or_eq_false_iff, decide_eq_false_iff_not] at ha
      omega

/-- Settles O52: a register write leaves slot 0, and a store keeps the canonical form inside the capacity. -/
theorem stepKeepsDataForm : Obligations.StepKeepsDataForm := by
  intro s t hs ht
  cases hr : stopped s
  case true =>
    rw [step_of_stopped hr] at ht
    cases ht
    exact hs
  case false =>
    obtain ⟨mw, d, x, hm, _, _, rfl⟩ := step_next_parts hr ht
    have hzero := (completeMemWb_slot_zero s.memwb s.regs).trans hs.zeroSlot
    rcases dmem_of_memoryOut hm with rfl | ⟨k, v, hk, rfl⟩
    · exact ⟨hzero, hs.memCanonical, hs.memInside⟩
    · refine ⟨hzero, memSet_wf hs.memCanonical k v, fun cell hcell => ?_⟩
      rcases mem_memSet hcell with hold | rfl
      · exact hs.memInside cell hold
      · exact hk

end Sys2Proof.Machine

/-! PROOFS. The first step of a drained core: obligation O38 (41_pipeline.md R155, log entry 6). -/

namespace Sys2Proof.Machine

/-- With nothing in flight a step is the Fetch stage alone. -/
theorem step_of_drained {s : State} {i : Instr} (hr : stopped s = false) (hd : drained s = true)
    (hpc : s.pc.msb = false) (hslot : slotAt s.imem s.pc = some i) :
    step s = exec i { s with cycle := s.cycle + 1, snap := none, phase := .fetch } := by
  obtain ⟨hf, he, hm, hw⟩ := (drained_iff s).mp hd
  have hdec : afterDecode s (afterExecute s none) = (none, s.pc, s.stalls) := by simp [afterExecute, afterDecode, hf]
  rw [step_of_parts hr (memoryOut_of_none (s := { s with snap := s.memwb }) hm)
    (executeOut_of_none (s := { s with snap := s.memwb }) he)
    (by rw [hdec]; exact hpc), exec_fetch rfl, fetchStage, hdec]
  simp [cycleEnd, hw, he, hm, completeMemWb, fetchAt_of_slot hslot, pcAfterFetch_of_slot hslot]

theorem slotOfWord_of_decodeWith {so : ShiftOperands} {w : Word} {i : Instr} (h : decodeWith so w = .ok i) :
    slotOfWord so w = some i := by
  rw [slotOfWord, h]
  rfl

/-- Settles O38: a word that is placed stands in the slot the drained core fetches. -/
theorem firstStepRunsTheDecodedInstruction : Obligations.FirstStepRunsTheDecodedInstruction := by
  refine ⟨fun s i hr hd hpc hslot => step_of_drained hr hd hpc hslot, fun s w i hw => ?_⟩
  have hplace : s.withFetchWord 32 w.toNat = placeWord s.params.shiftOperands w s := by
    rw [State.withFetchWord, if_pos (Nat.le_refl 32), BitVec.ofNat_toNat, BitVec.setWidth_eq]
  rw [hplace]
  refine step_of_drained rfl rfl ?_ ?_
  · show (if s.pc.msb then (0 : Word) else s.pc).msb = false
    split
    case isTrue => exact BitVec.msb_zero
    case isFalse h => simpa using h
  · exact (slotAt_slotPut s.imem _ _).trans (slotOfWord_of_decodeWith hw)

end Sys2Proof.Machine

/-! PROOFS. One instruction alone in the machine, through its five cycles: obligations O33 to O36 (41_pipeline.md R130 to
R160, 42_arith_logic.md to 44_control_transfer.md). -/

namespace Sys2Proof.Machine

/-- A step with nothing to decode and nothing at the index Fetch reads: the older instructions move on, and the core halts if
none is left. -/
theorem step_of_idle_front {s : State} (hr : stopped s = false) (hf : s.ifid = none) {mw : Option MemWb} {d : Memory}
    {x : ExecuteOut} (hm : memoryOut { s with snap := s.memwb } = .ok (mw, d))
    (hx : executeOut { s with snap := s.memwb } = some x) {k : Word} (hk : x.target.getD s.pc = k)
    (hlow : k.msb = false) (habsent : slotAt s.imem k = none) :
    step s = .next { s with
      regs := completeMemWb s.memwb s.regs, dmem := d, zf := x.zf, pc := k, snap := s.memwb
      ifid := none, idex := none, exmem := x.exmem, memwb := mw
      cycle := s.cycle + 1, phase := .fetch, halted := x.exmem.isNone && mw.isNone } := by
  have hdec : afterDecode s (afterExecute s x.target) = (none, k, s.stalls) := by
    cases ht : x.target with
    | none =>
      rw [ht] at hk
      simp [afterExecute, afterDecode, hf, ← hk]
    | some t =>
      rw [ht] at hk
      simp [afterExecute, afterDecode, ← hk]
  rw [step_of_parts hr hm hx (by rw [hdec]; exact hlow), hdec]
  simp [cycleEnd, fetchAt_of_absent habsent, pcAfterFetch_of_absent habsent, (halted_of_running hr).1]

/-- With nothing older in flight a register read is not forwarded. -/
theorem forward_of_nothing {s : State} (hm : s.exmem = none) (hs : s.snap = none) (f : RegFile) (r : Reg) :
    forward s r (regRead f r) = regRead f r := by
  by_cases hr : r = 0
  · rw [hr, forward_zero, regRead_zero]
  · rw [forward, if_neg hr, hm, hs]
    exact ite_self _

section Alone

variable (i : Instr) (s : State)

/-- The instruction on its own registers: what the arithmetic unit answers. -/
def aloneOut : Word × Bool :=
  unitOut s.params.shiftOperands i s.zf (regRead s.regs i.rs) (regRead s.regs i.rt)

/-- The instruction on its own registers: where it goes on to. -/
def aloneTarget : Option Word :=
  unitTarget s.params.shiftOperands i s.pc s.zf (regRead s.regs i.rs) (regRead s.regs i.rt)

/-- The state after the cycle that fetched the instruction. -/
def aloneFetched : State :=
  { s with cycle := s.cycle + 1, snap := none, phase := .fetch, ifid := some ⟨i, s.pc⟩, pc := s.pc + 1 }

/-- The state after the cycle that decoded it. -/
def aloneDecoded : State :=
  { s with cycle := s.cycle + 2, snap := none, phase := .fetch, ifid := none, pc := s.pc + 1
           idex := some (decodeOf ⟨i, s.pc⟩ s.regs) }

/-- The latch it leaves Execute in. -/
def aloneLatch : ExMem :=
  ⟨i, s.pc, (aloneOut i s).1, regRead s.regs i.rt, destOf i (decodeCtrl i.opcode), decodeCtrl i.opcode⟩

/-- The state after the cycle that executed it. -/
def aloneExecuted (target : Word) : State :=
  { s with cycle := s.cycle + 3, snap := none, phase := .fetch, pc := target, zf := (aloneOut i s).2
           exmem := some (aloneLatch i s) }

/-- The state after the cycle that completed it in Memory. -/
def aloneAccessed (target : Word) (w : MemWb) (d : Memory) : State :=
  { s with cycle := s.cycle + 4, snap := none, phase := .fetch, pc := target, zf := (aloneOut i s).2
           dmem := d, memwb := some w }

/-- The state after the cycle that wrote it back, in which the core halts. -/
def aloneWritten (target : Word) (w : MemWb) (d : Memory) : State :=
  { s with cycle := s.cycle + 5, snap := some w, phase := .fetch, pc := target, zf := (aloneOut i s).2
           dmem := d, regs := completeMemWb (some w) s.regs, halted := true }

variable {i s} {target : Word} (h : AloneAt i target s)

include h

theorem AloneAt.step_fetch : step s = .next (aloneFetched i s) := by
  rw [step_of_drained h.running h.empty h.pcLow h.here, exec_fetch rfl]
  rfl

theorem AloneAt.step_decode : step (aloneFetched i s) = .next (aloneDecoded i s) := by
  obtain ⟨hf, he, hm, hw⟩ := (drained_iff s).mp h.empty
  obtain ⟨hhalted, hfault⟩ := halted_of_running h.running
  have hz : hazard (aloneFetched i s) i (decodeCtrl i.opcode) = false := hazard_of_no_load (by simp [aloneFetched, he]) _ _
  have hdec : afterDecode (aloneFetched i s) (afterExecute (aloneFetched i s) none) =
      (some (decodeOf ⟨i, s.pc⟩ s.regs), s.pc + 1, s.stalls) := by
    show (if hazard (aloneFetched i s) i (decodeCtrl i.opcode) = true then _ else
      (some (decodeOf ⟨i, s.pc⟩ (completeMemWb s.memwb s.regs)), s.pc + 1, s.stalls)) = _
    rw [hz, hw]
    rfl
  rw [step_of_parts (s := aloneFetched i s) h.running (memoryOut_of_none hm) (executeOut_of_none he)
    (by rw [hdec]; exact h.nextLow), hdec]
  have hfetch : fetchAt s.imem (s.pc + 1#32) = none := fetchAt_of_absent h.nextAbsent
  have hpc : pcAfterFetch s.imem (s.pc + 1#32) = s.pc + 1#32 := pcAfterFetch_of_absent h.nextAbsent
  simp [cycleEnd, aloneFetched, aloneDecoded, hfetch, hpc, hw, completeMemWb, hhalted, hm]

theorem AloneAt.step_execute (htarget : (aloneTarget i s).getD (s.pc + 1) = target) :
    step (aloneDecoded i s) = .next (aloneExecuted i s target) := by
  obtain ⟨hf, he, hm, hw⟩ := (drained_iff s).mp h.empty
  obtain ⟨hhalted, hfault⟩ := halted_of_running h.running
  have hread := fun r => forward_of_nothing (s := { aloneDecoded i s with snap := s.memwb }) hm hw s.regs r
  have hx := executeOut_of_carries (s := { aloneDecoded i s with snap := s.memwb }) (e := decodeOf ⟨i, s.pc⟩ s.regs)
    rfl rfl rfl
  simp only [decodeOf, hread] at hx
  rw [step_of_idle_front (s := aloneDecoded i s) h.running rfl (memoryOut_of_none hm) hx htarget h.targetLow
    h.targetAbsent]
  simp [aloneDecoded, aloneExecuted, aloneLatch, aloneOut, hw, completeMemWb, hf, he, hhalted]

theorem AloneAt.step_memory {w : MemWb} {d : Memory} (hm : memoryOut (aloneExecuted i s target) = .ok (some w, d)) :
    step (aloneExecuted i s target) = .next (aloneAccessed i s target w d) := by
  obtain ⟨hf, he, hxm, hw⟩ := (drained_iff s).mp h.empty
  obtain ⟨hhalted, hfault⟩ := halted_of_running h.running
  have hsnap : ({ aloneExecuted i s target with snap := s.memwb } : State) = aloneExecuted i s target := by
    rw [hw]
    rfl
  rw [step_of_idle_front (s := aloneExecuted i s target) h.running hf ((congrArg memoryOut hsnap).trans hm)
    (executeOut_of_none he) rfl h.targetLow h.targetAbsent]
  simp [aloneExecuted, aloneAccessed, hw, completeMemWb, hf, he, hxm, hhalted]

theorem AloneAt.step_writeback (w : MemWb) (d : Memory) :
    step (aloneAccessed i s target w d) = .next (aloneWritten i s target w d) := by
  obtain ⟨hf, he, hm, hw⟩ := (drained_iff s).mp h.empty
  rw [step_of_idle_front (s := aloneAccessed i s target w d) h.running hf (memoryOut_of_none hm)
    (executeOut_of_none he) rfl h.targetLow h.targetAbsent]
  simp [aloneAccessed, aloneWritten, hf, he, hm, hw]

end Alone

/-- One instruction alone in the machine completes in five steps with its architectural effect. -/
theorem AloneAt.run {i : Instr} {target : Word} {s : State} (h : AloneAt i target s) {b : ArchState}
    (hb : archEffect s.params i (archStart s) = .next b) (hpc : b.pc = target) :
    ∃ t, SafeRun 5 s t ∧ t.regs = b.regs ∧ t.dmem = b.mem ∧ t.pc = b.pc ∧ t.zf = (aloneOut i s).2 ∧
      t.halted = true ∧ t.cycle = s.cycle + 5 ∧ t.stalls = s.stalls := by
  have passed : PassedExecute (aloneExecuted i s target) (aloneLatch i s) (archStart s) s.zf :=
    { latch := rfl, ctrl := rfl, dest := rfl, alu := rfl, mem := rfl
      store := fun _ => by
        simp only [storeData, aloneExecuted, snapSource]
        exact ite_self _ }
  have heff := (archEffect_eq_stages passed).symm.trans hb
  cases hm : memoryOut (aloneExecuted i s target) with
  | error k => rw [hm] at heff; cases heff
  | ok out =>
    obtain ⟨mw, d⟩ := out
    rw [hm] at heff
    cases heff
    rcases memoryOut_eq_ok hm with ⟨hn, _⟩ | ⟨m, v, _, _, _, rfl⟩
    · cases hn
    · refine ⟨aloneWritten i s target _ d, ?_, rfl, rfl, hpc.symm, rfl, rfl, rfl, rfl⟩
      unfold SafeRun
      rw [run_succ_of_next h.step_fetch, run_succ_of_next h.step_decode, run_succ_of_next (h.step_execute hpc),
        run_succ_of_next (h.step_memory hm), run_succ_of_next (h.step_writeback _ d)]
      rfl

/-- The same for an instruction that writes one register and goes on to the next index. -/
theorem AloneAt.run_write {i : Instr} {s : State} (h : AloneAt i (s.pc + 1) s) {r : Reg} {v : Word}
    (hb : archEffect s.params i (archStart s) = archWrite (archStart s) r v) (hz : (aloneOut i s).2 = (v == 0)) :
    ∃ t, SafeRun 5 s t ∧ t.regs = regWrite s.regs r v ∧ t.zf = (v == 0) ∧ t.pc = s.pc + 1 ∧ t.dmem = s.dmem ∧
      t.halted = true ∧ t.cycle = s.cycle + 5 ∧ t.stalls = s.stalls := by
  obtain ⟨t, hrun, hregs, hdmem, hpc, hzf, hh, hcycle, hstalls⟩ := h.run hb rfl
  exact ⟨t, hrun, hregs, hzf.trans hz, hpc, hdmem, hh, hcycle, hstalls⟩

/-- Settles O33: the architectural effect of each is one register write, and its flag that of the value. -/
theorem registerRegisterAlone : Obligations.RegisterRegisterAlone := by
  intro s rd rs rt
  exact ⟨fun h => h.run_write rfl rfl, fun h => h.run_write rfl rfl, fun h => h.run_write rfl rfl,
    fun h => h.run_write rfl rfl, fun h => h.run_write rfl rfl, fun h => h.run_write rfl rfl⟩

/-- Settles O34: the operand selection decides the value a shift writes. -/
theorem shiftsAndImmediatesAlone : Obligations.ShiftsAndImmediatesAlone := by
  intro s rd rs rt sh imm
  refine ⟨fun hso => ⟨fun h => h.run_write ?_ ?_, fun h => h.run_write ?_ ?_⟩,
    fun hso => ⟨fun h => h.run_write ?_ ?_, fun h => h.run_write ?_ ?_⟩,
    fun h => h.run_write rfl rfl, fun h => h.run_write rfl rfl⟩
  all_goals simp [archEffect, archShift, aloneOut, hso, Instr.rs, Instr.rt]

/-- Settles O35: an address inside the bounds is read or written in its word. -/
theorem loadAndStoreAlone : Obligations.LoadAndStoreAlone := by
  intro s rt rs imm ea hmsb hlt
  have ha : addrRefused s.params ea = false := addrRefused_eq_false hmsb hlt
  constructor
  · intro h
    have hb : archEffect s.params (.lw rt rs imm) (archStart s) =
        archWrite (archStart s) rt (memGet s.dmem (ea.toNat / 4)) := by
      simp only [archEffect]
      rw [memRead_of_not_refused s.dmem ha]
    obtain ⟨t, hrun, hregs, hdmem, hpc, hzf, hh, _⟩ := h.run hb rfl
    exact ⟨t, hrun, hregs, hdmem, hzf, hpc, hh⟩
  · intro h
    have hb : archEffect s.params (.sw rt rs imm) (archStart s) =
        .next ⟨s.regs, memSet s.dmem (ea.toNat / 4) (regRead s.regs rt), s.pc + 1⟩ := by
      simp only [archEffect]
      rw [memWrite_of_not_refused s.dmem (regRead s.regs rt) ha]
    obtain ⟨t, hrun, hregs, hdmem, hpc, hzf, hh, _⟩ := h.run hb rfl
    exact ⟨t, hrun, hregs, hdmem, hzf, hpc, hh⟩

/-- Settles O36: a transfer changes the index alone, and its flag is that of the comparison. -/
theorem transfersAlone : Obligations.TransfersAlone := by
  intro s rs rt imm addr x goes
  have done : ∀ {i : Instr} {pc : Word} {zf : Bool},
      archEffect s.params i (archStart s) = .next ⟨s.regs, s.dmem, pc⟩ → (aloneOut i s).2 = zf → goes i pc zf := by
    intro i pc zf hb hz h
    obtain ⟨t, hrun, hregs, hdmem, hpc, hzf, hh, _⟩ := h.run hb rfl
    exact ⟨t, hrun, hpc, hzf.trans hz, hregs, hdmem, hh⟩
  refine ⟨done ?_ ?_, done ?_ ?_, done rfl rfl⟩
  · simp [archEffect, archBranch, x]
  · simp only [aloneOut, unitOut_beq, Instr.rs, Instr.rt, beq_eq_decide]
    rfl
  · simp [archEffect, archBranch, x]
  · exact (aluResult_slt_zero (x rs)).2

end Sys2Proof.Machine

/-! PROOFS. The host's interfaces: reset and the loader, presets and toggles, and the clock edge: obligations O53, O59 and O60
(70_reset_and_hazards.md, 60_exceptions.md R239 to R255). -/

namespace Sys2Proof.Machine

/-- A reset core with any store shorter than 2^31 slots is ready to run. -/
theorem runStart_reset (p : Params) {im : Store} (h : im.length < maxProgLen) :
    RunStart { State.resetWith p with imem := im } := ⟨rfl, rfl, BitVec.msb_zero, h⟩

theorem dataInv_reset (p : Params) (im : Store) : DataInv { State.resetWith p with imem := im } :=
  ⟨rfl, rfl, fun _ h => absurd h List.not_mem_nil⟩

theorem loadWords_of_fresh {s : State} (hf : fresh s = true) (ws : List Word) :
    loadWords ws s = if ws.length ≤ maxProgLen
      then .next { s with imem := ws.map (slotOfWord s.params.shiftOperands) } else .refused .programTooLong := by
  rw [loadWords, installStore_of_fresh hf, List.length_map]

/-- Settles O53: the load of a reset core is a start state. -/
theorem loadedResetMeetsInvariants : Obligations.LoadedResetMeetsInvariants := by
  have hempty : RunStart State.reset := runStart_reset Params.default (im := []) (by decide)
  refine ⟨hempty.pipeInv, dataInv_reset Params.default [], fun p ws hl => ?_⟩
  have hstart : RunStart { State.resetWith p with imem := ws.map (slotOfWord p.shiftOperands) } :=
    runStart_reset p (by rwa [List.length_map])
  exact ⟨_, (loadWords_of_fresh rfl ws).trans (if_pos hl.le), rfl, hstart.pipeInv, dataInv_reset p _, hstart⟩

/-! Presets and toggles before and after the first step. -/

theorem presetReg_of_fresh {s : State} (hf : fresh s = true) (r : Reg) (v : Word) :
    presetReg r.toNat v s = .next { s with regs := regWrite s.regs r v } := by
  rw [presetReg, hf, regWriteAt_of_lt _ _ r.isLt, BitVec.ofNat_toNat, BitVec.setWidth_eq]
  rfl

theorem presetMem_of_fresh {s : State} (hf : fresh s = true) {k : Nat} (v : Word) (hk : k < s.params.memWords) :
    presetMem k v s = .next { s with dmem := memSet s.dmem k v } := by
  rw [presetMem, hf, if_neg (by simp), if_neg (Nat.not_le.mpr hk)]

theorem fresh_of_cycle_ne {s : State} (h : s.cycle ≠ 0) : fresh s = false := by
  simp [fresh, h]

theorem loadRecords_of_not_fresh {s : State} (hf : fresh s = false) (rs : List (Option Record)) :
    loadRecords rs s = .refused .loadWithoutReset ∨ loadRecords rs s = .refused .illFormedRecord := by
  unfold loadRecords
  cases slotsOfRecords s.params.shiftOperands rs with
  | none => exact .inr rfl
  | some im => exact .inl (installStore_of_not_fresh hf im)

/-- Settles O59: every interface of the host asks first whether a step has run. -/
theorem hostWritesOnlyBeforeTheFirstStep : Obligations.HostWritesOnlyBeforeTheFirstStep := by
  constructor
  · intro s hf
    refine ⟨presetReg_of_fresh hf, fun k v hk => presetMem_of_fresh hf v hk, fun h f => ?_, fun ws hl => ?_,
      fun ws hl => ?_, fun rs im him => loadRecords_eq_of_slots hf him⟩
    · rw [setToggles, hf]
      rfl
    · rw [loadWords_of_fresh hf, if_pos hl]
    · rw [loadWords_of_fresh hf, if_neg (Nat.not_le.mpr hl)]
  · intro s hc
    have hf := fresh_of_cycle_ne hc
    refine ⟨fun k v => ⟨?_, ?_⟩, fun h f => ?_, fun ws => installStore_of_not_fresh hf _,
      fun rs => loadRecords_of_not_fresh hf rs⟩
    · rw [presetReg, hf]
      rfl
    · rw [presetMem, hf]
      rfl
    · rw [setToggles, hf]
      rfl

/-! The clock edge. -/

/-- Once the core has stepped the presets of an edge change nothing (R255). -/
theorem portPresets_of_not_fresh {s : State} (hf : fresh s = false) (p : PortsIn) : portPresets p s = s := by
  rw [portPresets, hf, if_neg Bool.false_ne_true]

section Edge

/-! An edge without reset, on a core that has stepped. -/

variable {p : PortsIn} {s t : State} (hrst : p.rst = false) (hf : fresh s = false)

include hrst hf

theorem clockEdge_of_not_stepEn (hen : p.stepEn = false) : clockEdge p s = s := by
  simp only [clockEdge, hrst, portPresets_of_not_fresh hf, hen, Bool.false_eq_true, if_false]

theorem clockEdge_of_next (hen : p.stepEn = true) (ht : step s = .next t) : clockEdge p s = t := by
  simp only [clockEdge, hrst, portPresets_of_not_fresh hf, hen, Bool.false_eq_true, if_false, if_true, ht]

theorem clockEdge_of_fault (hen : p.stepEn = true) {k : ErrorKind} (ht : step s = .fault (.raised k t)) :
    clockEdge p s = t := by
  simp only [clockEdge, hrst, portPresets_of_not_fresh hf, hen, Bool.false_eq_true, if_false, if_true, ht]

theorem clockEdge_of_stopped (hs : stopped s = true) : clockEdge p s = s := by
  cases hen : p.stepEn
  · exact clockEdge_of_not_stepEn hrst hf hen
  · exact clockEdge_of_next hrst hf hen (step_of_stopped hs)

end Edge

theorem fault_of_step {s t : State} {k : ErrorKind} (h : step s = .fault (.raised k t)) : t.fault = some k := by
  have hr := (step_fault_cases h).1
  rw [step_eq hr] at h
  split at h
  · cases h; rfl
  · split at h
    · cases h; rfl
    · dsimp only at h
      split at h
      · cases h; rfl
      · cases h

/-- Settles O60: a stopped core steps to itself, and one that has faulted is stopped. -/
theorem clockEdgeHoldsAStoppedCore : Obligations.ClockEdgeHoldsAStoppedCore := by
  constructor
  · intro p s hrst hc hhold
    have hf := fresh_of_cycle_ne hc
    rcases hhold with hen | hs
    · exact clockEdge_of_not_stepEn hrst hf hen
    · exact clockEdge_of_stopped hrst hf hs
  · intro p s t k hrst hen hf ht
    have hfault := fault_of_step ht
    refine ⟨clockEdge_of_fault hrst hf hen ht, hfault, clockEdge_of_stopped hrst ?_ ?_⟩
    · simp [fresh, hfault]
    · simp [stopped, hfault]

end Sys2Proof.Machine
